-- ==== Sys2Proof/Word.lean ====
section
/-! DEFINITION. The widths of the machine's values (spec/00_scope.md R7, R10, R11; spec/10_state.md R20 to R31). -/

namespace Sys2Proof

/-- A general register, a timer, the stack pointer or one memory byte (R7). -/
abbrev Byte := BitVec 8

/-- `pc`, `I`, a stack entry or an instruction word (R7, R90). -/
abbrev Word := BitVec 16

/-- The state of the random source (R28). -/
abbrev RngWord := BitVec 32

/-- A 4-bit register index 0..15 (R91, R93). -/
abbrev RegIx := Fin 16

/-- A key index 0..15 (R30). -/
abbrev KeyIx := Fin 16

end Sys2Proof
end

