-- ==== Sys2Proof/Config.lean ====
section
/-! DEFINITION. The two parameters the spec leaves open (spec/00_scope.md R8) and the fixed sizes of R7. -/

namespace Sys2Proof.Config

/-- FONT_BASE, the address of the glyph table: OPEN, 0 to 0x1B0 (R7, R8, R62; D3). Nothing is known of it but its range. -/
opaque fontBaseParam : Fin 0x1B1

/-- SEED, the value RESET gives the random source: OPEN, any 32-bit value (R7, R8, R28; D5). -/
opaque seedParam : RngWord

/-- MEM_SIZE (R7, R60): addresses 0x000..0xFFF. -/
def memSize : Nat := 0x1000

/-- PROG_BASE (R7, R61): the program region begins here. -/
def progBase : Nat := 0x200

/-- PROG_MAX (R7, R354): the longest program LOAD accepts. -/
def progMax : Nat := 3584

end Sys2Proof.Config
end

