-- ==== Sys2Proof/Machine/State.lean ====
section
/-! DEFINITION. The state of the core (spec/10_state.md), its faults and refusals, and RESET (spec/70_reset_and_hazards.md R350). -/

namespace Sys2Proof.Machine

/-- Memory as listed cells: addresses strictly rising, no cell equal to what an unlisted address reads as
(`Memory.wf` in Machine/Ops.lean). An unlisted address reads as RESET left it (R61). -/
abbrev Memory := List Host.Cell

/-- `disp[r][c]`: 32 rows of 64 cells, row 0 the top and column 0 the left (R29, R250). -/
abbrev Display := Vector (Vector Bool 64) 32

/-- The causes of the one fault OutOfBounds, in the order of their codes 0 to 6 (R301). -/
inductive Cause where
  | fetch
  | stackOverflow
  | stackUnderflow
  | memory
  | keyIndex
  | glyphIndex
  | indexOverflow
  deriving DecidableEq, Repr

/-- Why a step stops with a fault. A fault leaves the state as the cycle found it (R127), so no state comes with it. -/
inductive Fault where
  /-- `raise OutOfBounds(cause, value)` inside a cycle (R14): raised by RET, CALL, DRW, LD B,Vx, LD [I],Vx, LD Vx,[I],
  SKP, SKNP, LD F,Vx and ADD I,Vx. `step` never answers it: the cycle turns it into `outOfBounds`. The spec states each
  condition; KEY_INDEX, GLYPH_INDEX and INDEX_OVERFLOW are its decisions D13 to D15: safe (the model stops). -/
  | raised (cause : Cause) (value : Nat)
  /-- `Fault(cause, value, pc, opcode)`, what the cycle returns to the host (R127, R300): raised by the fetch bound
  (no opcode) and by the instructions named above. Safe: the spec's own fault. -/
  | outOfBounds (cause : Cause) (value : Nat) (pc : Word) (opcode : Option Word)
  deriving DecidableEq, Repr

/-- Why an operation is refused. -/
inductive Refusal where
  /-- An instruction without a meaning: raised by an arm of `exec`; no arm does. Safe. -/
  | notModelled (mnemonic : String)
  /-- A LOAD after the first CYCLE or a second successful LOAD (R355, U16): raised by `Session.perform`, never by `step`.
  Safe: the spec has no step for it. -/
  | loadOutsideProtocol
  deriving DecidableEq, Repr

/-- What CYCLE returns to the host (R300). It is returned and kept nowhere: no field of State holds it (R34, R129; D9). -/
inductive CycleOutcome where
  /-- `Success` (R128) -/
  | success
  /-- `UnsupportedOpcode(opcode, pc)` (R124) -/
  | unsupportedOpcode (opcode : Word) (pc : Word)
  /-- `Fault(cause, value, pc, opcode)` (R127) -/
  | fault (f : Fault)
  deriving DecidableEq, Repr

/-- The state record of spec/10_state.md section 1: exactly its fields, with the spec's own names (R34). -/
structure State where
  /-- memory (R60) -/
  mem : Memory
  /-- general registers V0..VF; VF is also the flag register (R20, R21) -/
  V : Vector Byte 16
  /-- index register (R22) -/
  I : Word
  /-- program counter (R23) -/
  pc : Word
  /-- stack pointer (R24) -/
  SP : Byte
  /-- call stack (R25) -/
  stack : Vector Word 16
  /-- delay timer (R26) -/
  DT : Byte
  /-- sound timer (R27) -/
  ST : Byte
  /-- random-number state (R28) -/
  rng : RngWord
  /-- display buffer (R29) -/
  disp : Display
  /-- key flags (R30) -/
  key : Vector Bool 16
  /-- awaiting-key state (R31) -/
  wait : Option RegIx
  deriving DecidableEq, Repr

/-- RESET(SEED) (R350). Memory with nothing listed is zero but for the glyph table (`resetByte`, Machine/Ops.lean). The
values of `V`, `I`, `stack`, `disp`, `key` and `wait` are decision D6 (log 6), `pc` is decision D1 (log 5). -/
def State.resetWith (seed : RngWord) : State :=
  { mem := []
    V := Vector.replicate 16 0
    I := 0
    pc := 0x200
    SP := 0
    stack := Vector.replicate 16 0
    DT := 0
    ST := 0
    rng := seed
    disp := Vector.replicate 32 (Vector.replicate 64 false)
    key := Vector.replicate 16 false
    wait := none }

/-- The machine right after reset, for the open parameter SEED (R8, R28; D5). -/
def State.reset : State := State.resetWith Config.seedParam

end Sys2Proof.Machine
end

