-- ==== Sys2Proof/Machine/Flags.lean ====
section
/-! DEFINITION. Every value an instruction writes to VF as a flag (spec/10_state.md R21, spec/42_alu.md R192). -/

namespace Sys2Proof.Machine

/-- A flag as VF holds it: 1 or 0. -/
def flagByte (b : Bool) : Byte := if b then 1 else 0

/-- Carry of `ADD Vx,Vy`: 1 exactly when the exact sum exceeds 255 (R186, R192). -/
def carryFlag (vx vy : Byte) : Byte := flagByte (decide (vx.toNat + vy.toNat > 255))

/-- No-borrow of `SUB` and `SUBN`: 1 exactly when the minuend is strictly greater than the subtrahend (R187, R189, R192). -/
def greaterFlag (minuend subtrahend : Byte) : Byte := flagByte (decide (minuend.toNat > subtrahend.toNat))

/-- The bit `SHR` shifts out: bit 0 (R188). -/
def shiftedRightFlag (vx : Byte) : Byte := flagByte (decide (vx.toNat % 2 = 1))

/-- The bit `SHL` shifts out: bit 7, the most significant (R190; C3). -/
def shiftedLeftFlag (vx : Byte) : Byte := flagByte (decide (vx.toNat / 128 % 2 = 1))

/-- The collision flag of `DRW` (R252, R253). -/
def collisionFlag (collided : Bool) : Byte := flagByte collided

end Sys2Proof.Machine
end

