-- ==== Sys2Proof/Syntax.lean ====
section
/-! DEFINITION. The instructions: one constructor per row of spec/opcode_table.json, in its order (spec/30_encoding.md R94). -/

namespace Sys2Proof

/-- The 34 instructions with the operands their rows name (R93, R94). `x` and `y` are register indexes, `kk` an
immediate byte, `nnn` an address already zero-extended to 16 bits (R92), `n` a row count. The `y` field of `8xy6` and
`8xyE` is no operand (R93, R96). -/
inductive Instr where
  /-- `00E0` CLS (R251) -/
  | cls
  /-- `00EE` RET (R150) -/
  | ret
  /-- `1nnn` JP addr (R151) -/
  | jp (nnn : Word)
  /-- `2nnn` CALL addr (R152) -/
  | call (nnn : Word)
  /-- `3xkk` SE Vx,kk (R153) -/
  | seKk (x : RegIx) (kk : Byte)
  /-- `4xkk` SNE Vx,kk (R154) -/
  | sneKk (x : RegIx) (kk : Byte)
  /-- `5xy0` SE Vx,Vy (R155) -/
  | seVy (x y : RegIx)
  /-- `6xkk` LD Vx,kk (R180) -/
  | ldKk (x : RegIx) (kk : Byte)
  /-- `7xkk` ADD Vx,kk (R181) -/
  | addKk (x : RegIx) (kk : Byte)
  /-- `8xy0` LD Vx,Vy (R182) -/
  | ldVy (x y : RegIx)
  /-- `8xy1` OR Vx,Vy (R183) -/
  | orVy (x y : RegIx)
  /-- `8xy2` AND Vx,Vy (R184) -/
  | andVy (x y : RegIx)
  /-- `8xy3` XOR Vx,Vy (R185) -/
  | xorVy (x y : RegIx)
  /-- `8xy4` ADD Vx,Vy (R186) -/
  | addVy (x y : RegIx)
  /-- `8xy5` SUB Vx,Vy (R187) -/
  | subVy (x y : RegIx)
  /-- `8xy6` SHR Vx (R188) -/
  | shr (x : RegIx)
  /-- `8xy7` SUBN Vx,Vy (R189) -/
  | subnVy (x y : RegIx)
  /-- `8xyE` SHL Vx (R190) -/
  | shl (x : RegIx)
  /-- `9xy0` SNE Vx,Vy (R156) -/
  | sneVy (x y : RegIx)
  /-- `Annn` LD I,addr (R220) -/
  | ldI (nnn : Word)
  /-- `Bnnn` JP V0,addr (R157) -/
  | jpV0 (nnn : Word)
  /-- `Cxkk` RND Vx,kk (R191) -/
  | rnd (x : RegIx) (kk : Byte)
  /-- `Dxyn` DRW Vx,Vy,n (R252) -/
  | drw (x y : RegIx) (n : Nat)
  /-- `Ex9E` SKP Vx (R270) -/
  | skp (x : RegIx)
  /-- `ExA1` SKNP Vx (R271) -/
  | sknp (x : RegIx)
  /-- `Fx07` LD Vx,DT (R272) -/
  | ldVxDt (x : RegIx)
  /-- `Fx0A` LD Vx,K (R273) -/
  | ldVxK (x : RegIx)
  /-- `Fx15` LD DT,Vx (R275) -/
  | ldDtVx (x : RegIx)
  /-- `Fx18` LD ST,Vx (R276) -/
  | ldStVx (x : RegIx)
  /-- `Fx1E` ADD I,Vx (R221) -/
  | addIVx (x : RegIx)
  /-- `Fx29` LD F,Vx (R222) -/
  | ldFVx (x : RegIx)
  /-- `Fx33` LD B,Vx (R223) -/
  | ldBVx (x : RegIx)
  /-- `Fx55` LD [I],Vx (R224) -/
  | ldMemVx (x : RegIx)
  /-- `Fx65` LD Vx,[I] (R225) -/
  | ldVxMem (x : RegIx)
  deriving DecidableEq, Repr

end Sys2Proof
end

