-- ==== Sys2Proof/WellFormed.lean ====
section
/-! DEFINITION. Which instruction terms the encoding can carry (spec/30_encoding.md R91, R92). -/

namespace Sys2Proof

/-- An address operand fits the 12-bit field `nnn` (R92: 0..0xFFF). -/
def addrFits (nnn : Word) : Bool := decide (nnn.toNat < 0x1000)

/-- A row count fits the 4-bit field `n` (R92: 0..15). -/
def rowCountFits (n : Nat) : Bool := decide (n < 16)

/-- The operands fit their fields. Register indexes and immediate bytes fit by their types. -/
def Instr.wellFormed : Instr → Bool
  | .cls => true
  | .ret => true
  | .jp nnn => addrFits nnn
  | .call nnn => addrFits nnn
  | .seKk _ _ => true
  | .sneKk _ _ => true
  | .seVy _ _ => true
  | .ldKk _ _ => true
  | .addKk _ _ => true
  | .ldVy _ _ => true
  | .orVy _ _ => true
  | .andVy _ _ => true
  | .xorVy _ _ => true
  | .addVy _ _ => true
  | .subVy _ _ => true
  | .shr _ => true
  | .subnVy _ _ => true
  | .shl _ => true
  | .sneVy _ _ => true
  | .ldI nnn => addrFits nnn
  | .jpV0 nnn => addrFits nnn
  | .rnd _ _ => true
  | .drw _ _ n => rowCountFits n
  | .skp _ => true
  | .sknp _ => true
  | .ldVxDt _ => true
  | .ldVxK _ => true
  | .ldDtVx _ => true
  | .ldStVx _ => true
  | .addIVx _ => true
  | .ldFVx _ => true
  | .ldBVx _ => true
  | .ldMemVx _ => true
  | .ldVxMem _ => true

/-- The instruction is one a word can hold. -/
abbrev Instr.WellFormed (i : Instr) : Prop := i.wellFormed = true

end Sys2Proof
end

