-- ==== Sys2Proof/Decode.lean ====
section
/-! DEFINITION. Decoding and encoding of the one 16-bit format (spec/30_encoding.md). -/

namespace Sys2Proof

/-! ### The fields of an opcode word (R91), read as numbers as R10 and R11 read bit ranges -/

/-- `m = w[15:12]` (R91). -/
def fieldM (w : Word) : Nat := w.toNat / 0x1000

/-- `x = w[11:8]` (R91). -/
def fieldX (w : Word) : RegIx := Fin.ofNat 16 (w.toNat / 0x100)

/-- `y = w[7:4]` (R91). -/
def fieldY (w : Word) : RegIx := Fin.ofNat 16 (w.toNat / 0x10)

/-- `n = w[3:0]` (R91). -/
def fieldN (w : Word) : Nat := w.toNat % 0x10

/-- `kk = w[7:0]` (R91). -/
def fieldKk (w : Word) : Byte := BitVec.ofNat 8 w.toNat

/-- `nnn = w[11:0]`, zero-extended to 16 bits (R91, R92). -/
def fieldNnn (w : Word) : Word := BitVec.ofNat 16 (w.toNat % 0x1000)

/-! ### Decoding -/

/-- What the decoder answers (R97): one of the 34 instructions, or `Unsupported(w)`. -/
inductive Decoded where
  /-- A word of a row of R94. -/
  | instr (i : Instr)
  /-- A word that matches no row (R95). -/
  | unsupported (w : Word)
  deriving DecidableEq, Repr

/-- The decode table of R94, dispatching on `(m,x,y,n)` in the document's own patterns. Total on all 65536 words and a
function of the word alone (R97). -/
def decode (w : Word) : Decoded :=
  match fieldM w, (fieldX w).val, (fieldY w).val, fieldN w with
  | 0x0, 0x0, 0xE, 0x0 => .instr .cls
  | 0x0, 0x0, 0xE, 0xE => .instr .ret
  | 0x1, _, _, _ => .instr (.jp (fieldNnn w))
  | 0x2, _, _, _ => .instr (.call (fieldNnn w))
  | 0x3, _, _, _ => .instr (.seKk (fieldX w) (fieldKk w))
  | 0x4, _, _, _ => .instr (.sneKk (fieldX w) (fieldKk w))
  | 0x5, _, _, 0x0 => .instr (.seVy (fieldX w) (fieldY w))
  | 0x6, _, _, _ => .instr (.ldKk (fieldX w) (fieldKk w))
  | 0x7, _, _, _ => .instr (.addKk (fieldX w) (fieldKk w))
  | 0x8, _, _, 0x0 => .instr (.ldVy (fieldX w) (fieldY w))
  | 0x8, _, _, 0x1 => .instr (.orVy (fieldX w) (fieldY w))
  | 0x8, _, _, 0x2 => .instr (.andVy (fieldX w) (fieldY w))
  | 0x8, _, _, 0x3 => .instr (.xorVy (fieldX w) (fieldY w))
  | 0x8, _, _, 0x4 => .instr (.addVy (fieldX w) (fieldY w))
  | 0x8, _, _, 0x5 => .instr (.subVy (fieldX w) (fieldY w))
  | 0x8, _, _, 0x6 => .instr (.shr (fieldX w))
  | 0x8, _, _, 0x7 => .instr (.subnVy (fieldX w) (fieldY w))
  | 0x8, _, _, 0xE => .instr (.shl (fieldX w))
  | 0x9, _, _, 0x0 => .instr (.sneVy (fieldX w) (fieldY w))
  | 0xA, _, _, _ => .instr (.ldI (fieldNnn w))
  | 0xB, _, _, _ => .instr (.jpV0 (fieldNnn w))
  | 0xC, _, _, _ => .instr (.rnd (fieldX w) (fieldKk w))
  | 0xD, _, _, _ => .instr (.drw (fieldX w) (fieldY w) (fieldN w))
  | 0xE, _, 0x9, 0xE => .instr (.skp (fieldX w))
  | 0xE, _, 0xA, 0x1 => .instr (.sknp (fieldX w))
  | 0xF, _, 0x0, 0x7 => .instr (.ldVxDt (fieldX w))
  | 0xF, _, 0x0, 0xA => .instr (.ldVxK (fieldX w))
  | 0xF, _, 0x1, 0x5 => .instr (.ldDtVx (fieldX w))
  | 0xF, _, 0x1, 0x8 => .instr (.ldStVx (fieldX w))
  | 0xF, _, 0x1, 0xE => .instr (.addIVx (fieldX w))
  | 0xF, _, 0x2, 0x9 => .instr (.ldFVx (fieldX w))
  | 0xF, _, 0x3, 0x3 => .instr (.ldBVx (fieldX w))
  | 0xF, _, 0x5, 0x5 => .instr (.ldMemVx (fieldX w))
  | 0xF, _, 0x6, 0x5 => .instr (.ldVxMem (fieldX w))
  | _, _, _, _ => .unsupported w

/-- The big-endian word of two bytes: `concat8(hi, lo)` (R11, R66). -/
def concat8 (hi lo : Byte) : Word := BitVec.ofNat 16 (hi.toNat * 0x100 + lo.toNat)

/-- The byte stored at the lower address: bits 15:8 (R66, R90). -/
def highByte (w : Word) : Byte := BitVec.ofNat 8 (w.toNat / 0x100)

/-- The byte stored at the higher address: bits 7:0 (R66, R90). -/
def lowByte (w : Word) : Byte := BitVec.ofNat 8 w.toNat

/-- Decoding from bytes: always exactly 2 bytes, high byte first (R90). `none` when fewer than two are there. -/
def decodeBytes : List Byte → Option (Decoded × List Byte)
  | hi :: lo :: rest => some (decode (concat8 hi lo), rest)
  | _ => none

/-- The instruction the decoder reads from the instruction whose bits, numbered as spec/opcode_table.json numbers them,
are `w`. Every row is one 16-bit word, stored high byte first. -/
def decodeTableWord (nbits w : Nat) : Option Instr :=
  let word := BitVec.ofNat 16 (w % 2 ^ nbits)
  match decodeBytes [highByte word, lowByte word] with
  | some (.instr i, _) => some i
  | some (.unsupported _, _) => none
  | none => none

/-! ### Encoding (R91, R92, R94) -/

/-- The layout `m nnn` (R91). -/
def wordNnn (m : Nat) (nnn : Word) : Word := BitVec.ofNat 16 (m * 0x1000 + nnn.toNat % 0x1000)

/-- The layout `m x kk` (R91). -/
def wordXKk (m : Nat) (x : RegIx) (kk : Byte) : Word := BitVec.ofNat 16 (m * 0x1000 + x.val * 0x100 + kk.toNat)

/-- The layout `m x y n` (R91). -/
def wordXYN (m : Nat) (x y : RegIx) (n : Nat) : Word :=
  BitVec.ofNat 16 (m * 0x1000 + x.val * 0x100 + y.val * 0x10 + n % 0x10)

/-- The word of a well-formed instruction. The ignored `y` of SHR and SHL is written as 0 (R98). -/
def encode : Instr → Word
  | .cls => 0x00E0
  | .ret => 0x00EE
  | .jp nnn => wordNnn 0x1 nnn
  | .call nnn => wordNnn 0x2 nnn
  | .seKk x kk => wordXKk 0x3 x kk
  | .sneKk x kk => wordXKk 0x4 x kk
  | .seVy x y => wordXYN 0x5 x y 0x0
  | .ldKk x kk => wordXKk 0x6 x kk
  | .addKk x kk => wordXKk 0x7 x kk
  | .ldVy x y => wordXYN 0x8 x y 0x0
  | .orVy x y => wordXYN 0x8 x y 0x1
  | .andVy x y => wordXYN 0x8 x y 0x2
  | .xorVy x y => wordXYN 0x8 x y 0x3
  | .addVy x y => wordXYN 0x8 x y 0x4
  | .subVy x y => wordXYN 0x8 x y 0x5
  | .shr x => wordXYN 0x8 x 0 0x6
  | .subnVy x y => wordXYN 0x8 x y 0x7
  | .shl x => wordXYN 0x8 x 0 0xE
  | .sneVy x y => wordXYN 0x9 x y 0x0
  | .ldI nnn => wordNnn 0xA nnn
  | .jpV0 nnn => wordNnn 0xB nnn
  | .rnd x kk => wordXKk 0xC x kk
  | .drw x y n => wordXYN 0xD x y n
  | .skp x => wordXKk 0xE x 0x9E
  | .sknp x => wordXKk 0xE x 0xA1
  | .ldVxDt x => wordXKk 0xF x 0x07
  | .ldVxK x => wordXKk 0xF x 0x0A
  | .ldDtVx x => wordXKk 0xF x 0x15
  | .ldStVx x => wordXKk 0xF x 0x18
  | .addIVx x => wordXKk 0xF x 0x1E
  | .ldFVx x => wordXKk 0xF x 0x29
  | .ldBVx x => wordXKk 0xF x 0x33
  | .ldMemVx x => wordXKk 0xF x 0x55
  | .ldVxMem x => wordXKk 0xF x 0x65

/-! ### The opcode table as masks and matches (R94) -/

/-- A row of R94: a word belongs to it when `(w AND mask) = bits`. -/
structure OpcodeRow where
  /-- the mnemonic of spec/opcode_table.json -/
  mnemonic : String
  /-- the column `match` of R94 -/
  bits : Word
  /-- the column `mask` of R94 -/
  mask : Word
  deriving DecidableEq, Repr

/-- The row an instruction belongs to. -/
def Instr.row : Instr → OpcodeRow
  | .cls => ⟨"CLS", 0x00E0, 0xFFFF⟩
  | .ret => ⟨"RET", 0x00EE, 0xFFFF⟩
  | .jp _ => ⟨"JP_addr", 0x1000, 0xF000⟩
  | .call _ => ⟨"CALL_addr", 0x2000, 0xF000⟩
  | .seKk _ _ => ⟨"SE_Vx_kk", 0x3000, 0xF000⟩
  | .sneKk _ _ => ⟨"SNE_Vx_kk", 0x4000, 0xF000⟩
  | .seVy _ _ => ⟨"SE_Vx_Vy", 0x5000, 0xF00F⟩
  | .ldKk _ _ => ⟨"LD_Vx_kk", 0x6000, 0xF000⟩
  | .addKk _ _ => ⟨"ADD_Vx_kk", 0x7000, 0xF000⟩
  | .ldVy _ _ => ⟨"LD_Vx_Vy", 0x8000, 0xF00F⟩
  | .orVy _ _ => ⟨"OR_Vx_Vy", 0x8001, 0xF00F⟩
  | .andVy _ _ => ⟨"AND_Vx_Vy", 0x8002, 0xF00F⟩
  | .xorVy _ _ => ⟨"XOR_Vx_Vy", 0x8003, 0xF00F⟩
  | .addVy _ _ => ⟨"ADD_Vx_Vy", 0x8004, 0xF00F⟩
  | .subVy _ _ => ⟨"SUB_Vx_Vy", 0x8005, 0xF00F⟩
  | .shr _ => ⟨"SHR_Vx", 0x8006, 0xF00F⟩
  | .subnVy _ _ => ⟨"SUBN_Vx_Vy", 0x8007, 0xF00F⟩
  | .shl _ => ⟨"SHL_Vx", 0x800E, 0xF00F⟩
  | .sneVy _ _ => ⟨"SNE_Vx_Vy", 0x9000, 0xF00F⟩
  | .ldI _ => ⟨"LD_I_addr", 0xA000, 0xF000⟩
  | .jpV0 _ => ⟨"JP_V0_addr", 0xB000, 0xF000⟩
  | .rnd _ _ => ⟨"RND_Vx_kk", 0xC000, 0xF000⟩
  | .drw _ _ _ => ⟨"DRW_Vx_Vy_n", 0xD000, 0xF000⟩
  | .skp _ => ⟨"SKP_Vx", 0xE09E, 0xF0FF⟩
  | .sknp _ => ⟨"SKNP_Vx", 0xE0A1, 0xF0FF⟩
  | .ldVxDt _ => ⟨"LD_Vx_DT", 0xF007, 0xF0FF⟩
  | .ldVxK _ => ⟨"LD_Vx_K", 0xF00A, 0xF0FF⟩
  | .ldDtVx _ => ⟨"LD_DT_Vx", 0xF015, 0xF0FF⟩
  | .ldStVx _ => ⟨"LD_ST_Vx", 0xF018, 0xF0FF⟩
  | .addIVx _ => ⟨"ADD_I_Vx", 0xF01E, 0xF0FF⟩
  | .ldFVx _ => ⟨"LD_F_Vx", 0xF029, 0xF0FF⟩
  | .ldBVx _ => ⟨"LD_B_Vx", 0xF033, 0xF0FF⟩
  | .ldMemVx _ => ⟨"LD__I__Vx", 0xF055, 0xF0FF⟩
  | .ldVxMem _ => ⟨"LD_Vx__I", 0xF065, 0xF0FF⟩

/-- The 34 rows in the document's order. -/
def opcodeRows : List OpcodeRow :=
  [Instr.row .cls, Instr.row .ret, Instr.row (.jp 0), Instr.row (.call 0), Instr.row (.seKk 0 0), Instr.row (.sneKk 0 0)] ++
  [Instr.row (.seVy 0 0), Instr.row (.ldKk 0 0), Instr.row (.addKk 0 0), Instr.row (.ldVy 0 0), Instr.row (.orVy 0 0), Instr.row (.andVy 0 0)] ++
  [Instr.row (.xorVy 0 0), Instr.row (.addVy 0 0), Instr.row (.subVy 0 0), Instr.row (.shr 0), Instr.row (.subnVy 0 0), Instr.row (.shl 0)] ++
  [Instr.row (.sneVy 0 0), Instr.row (.ldI 0), Instr.row (.jpV0 0), Instr.row (.rnd 0 0), Instr.row (.drw 0 0 0), Instr.row (.skp 0)] ++
  [Instr.row (.sknp 0), Instr.row (.ldVxDt 0), Instr.row (.ldVxK 0), Instr.row (.ldDtVx 0), Instr.row (.ldStVx 0), Instr.row (.addIVx 0)] ++
  [Instr.row (.ldFVx 0), Instr.row (.ldBVx 0), Instr.row (.ldMemVx 0), Instr.row (.ldVxMem 0)]

/-! ### Assembly text (R98; D23 marks the syntax as the spec's own) -/

/-- A number as R9 writes it: `0x` and upper-case hexadecimal digits. -/
def hexText (n : Nat) : String := "0x" ++ (String.ofList (Nat.toDigits 16 n)).toUpper

/-- `V0` to `V9`, `VA` to `VF` (R98). -/
def regText (x : RegIx) : String := "V" ++ (String.ofList (Nat.toDigits 16 x.val)).toUpper

/-- The assembly of an instruction (R98). -/
def Instr.assembly : Instr → String
  | .cls => "CLS"
  | .ret => "RET"
  | .jp nnn => "JP " ++ hexText nnn.toNat
  | .call nnn => "CALL " ++ hexText nnn.toNat
  | .seKk x kk => "SE " ++ regText x ++ "," ++ hexText kk.toNat
  | .sneKk x kk => "SNE " ++ regText x ++ "," ++ hexText kk.toNat
  | .seVy x y => "SE " ++ regText x ++ "," ++ regText y
  | .ldKk x kk => "LD " ++ regText x ++ "," ++ hexText kk.toNat
  | .addKk x kk => "ADD " ++ regText x ++ "," ++ hexText kk.toNat
  | .ldVy x y => "LD " ++ regText x ++ "," ++ regText y
  | .orVy x y => "OR " ++ regText x ++ "," ++ regText y
  | .andVy x y => "AND " ++ regText x ++ "," ++ regText y
  | .xorVy x y => "XOR " ++ regText x ++ "," ++ regText y
  | .addVy x y => "ADD " ++ regText x ++ "," ++ regText y
  | .subVy x y => "SUB " ++ regText x ++ "," ++ regText y
  | .shr x => "SHR " ++ regText x
  | .subnVy x y => "SUBN " ++ regText x ++ "," ++ regText y
  | .shl x => "SHL " ++ regText x
  | .sneVy x y => "SNE " ++ regText x ++ "," ++ regText y
  | .ldI nnn => "LD I," ++ hexText nnn.toNat
  | .jpV0 nnn => "JP V0," ++ hexText nnn.toNat
  | .rnd x kk => "RND " ++ regText x ++ "," ++ hexText kk.toNat
  | .drw x y n => "DRW " ++ regText x ++ "," ++ regText y ++ "," ++ hexText n
  | .skp x => "SKP " ++ regText x
  | .sknp x => "SKNP " ++ regText x
  | .ldVxDt x => "LD " ++ regText x ++ ",DT"
  | .ldVxK x => "LD " ++ regText x ++ ",K"
  | .ldDtVx x => "LD DT," ++ regText x
  | .ldStVx x => "LD ST," ++ regText x
  | .addIVx x => "ADD I," ++ regText x
  | .ldFVx x => "LD F," ++ regText x
  | .ldBVx x => "LD B," ++ regText x
  | .ldMemVx x => "LD [I]," ++ regText x
  | .ldVxMem x => "LD " ++ regText x ++ ",[I]"

end Sys2Proof
end

