-- ==== Sys2Proof/Machine/Ops.lean ====
section
/-! DEFINITION. The named operations over registers, memory, the call stack, faults and the random source. -/

namespace Sys2Proof.Machine

/-- What a step-like operation answers: a value, a fault or a refusal. -/
abbrev Answer (σ : Type) := Host.Outcome σ Fault Refusal

/-- What a meaning answers. -/
abbrev Result := Answer State

/-! ### Register writes: one update per field -/

/-- `V[x] <- b` (R12, R20); no register is hardwired. -/
def State.setV (s : State) (x : RegIx) (b : Byte) : State := { s with V := s.V.set x b }

/-- The index of VF (R12, R21). -/
def vf : RegIx := 15

/-- `VF <- b` (R21). -/
def State.setVF (s : State) (b : Byte) : State := s.setV vf b

/-- `I <- w` (R22). -/
def State.setI (s : State) (w : Word) : State := { s with I := w }

/-- `pc <- w` (R23). -/
def State.setPc (s : State) (w : Word) : State := { s with pc := w }

/-- `SP <- b` (R24). -/
def State.setSP (s : State) (b : Byte) : State := { s with SP := b }

/-- `stack[j] <- w` (R25). -/
def State.setStack (s : State) (j : Fin 16) (w : Word) : State := { s with stack := s.stack.set j w }

/-- `DT <- b` (R26). -/
def State.setDT (s : State) (b : Byte) : State := { s with DT := b }

/-- `ST <- b` (R27). -/
def State.setST (s : State) (b : Byte) : State := { s with ST := b }

/-- `rng <- r` (R28). -/
def State.setRng (s : State) (r : RngWord) : State := { s with rng := r }

/-- The display buffer becomes `d` (R29). -/
def State.setDisp (s : State) (d : Display) : State := { s with disp := d }

/-- `key[k] <- b`, a host write (R30, R311). -/
def State.setKey (s : State) (k : KeyIx) (b : Bool) : State := { s with key := s.key.set k b }

/-- `wait <- w` (R31). -/
def State.setWait (s : State) (w : Option RegIx) : State := { s with wait := w }

/-- The memory becomes `m` (R60). -/
def State.setMem (s : State) (m : Memory) : State := { s with mem := m }

/-! ### Raising and reporting a fault (R14, R127, R300) -/

/-- `raise OutOfBounds(cause, value)`: ends the instruction at once (R14). -/
def raise {σ : Type} (cause : Cause) (value : Nat) : Answer σ := .fault (.raised cause value)

/-- The cycle completes a raised fault with the address and the word of the instruction (R127). No state comes with a
fault: the state is the one the cycle began with. No handler is entered and nothing is saved (R305). -/
def reportFault {σ : Type} (ipc : Word) (w : Option Word) : Answer σ → Answer σ
  | .next s => .next s
  | .fault (.raised cause value) => .fault (.outOfBounds cause value ipc w)
  | .fault (.outOfBounds cause value pc opcode) => .fault (.outOfBounds cause value pc opcode)
  | .refused r => .refused r

/-! ### The bounds check (R65) -/

/-- `check(a, k)` for k consecutive bytes at base a; the sum is exact. An access of 0 bytes makes no check. The value is
the first address outside memory. `body` is what follows when the check passes. -/
def checkRange {σ : Type} (cause : Cause) (a : Word) (k : Nat) (body : Answer σ) : Answer σ :=
  if 1 ≤ k ∧ a.toNat + k - 1 > 0xFFF then raise cause (max a.toNat 0x1000) else body

/-- An index that must name one of 16 keys or 16 glyphs (R222, R270, R271; D14, D15). -/
def checkIndex (cause : Cause) (v : Byte) (body : Fin 16 → Result) : Result :=
  if v.toNat > 15 then raise cause v.toNat else body (Fin.ofNat 16 v.toNat)

/-! ### Memory (R60 to R69) -/

/-- FONT_BASE (R8, R62). -/
def fontBase : Nat := Config.fontBaseParam.val

/-- The glyph bytes of digits 0 to F, top row first (R63; D4, log 4). -/
def fontData : List Byte :=
  [0xF0, 0x90, 0x90, 0x90, 0xF0] ++ [0x20, 0x60, 0x20, 0x20, 0x70] ++
  [0xF0, 0x10, 0xF0, 0x80, 0xF0] ++ [0xF0, 0x10, 0xF0, 0x10, 0xF0] ++
  [0x90, 0x90, 0xF0, 0x10, 0x10] ++ [0xF0, 0x80, 0xF0, 0x10, 0xF0] ++
  [0xF0, 0x80, 0xF0, 0x90, 0xF0] ++ [0xF0, 0x10, 0x20, 0x40, 0x40] ++
  [0xF0, 0x90, 0xF0, 0x90, 0xF0] ++ [0xF0, 0x90, 0xF0, 0x10, 0xF0] ++
  [0xF0, 0x90, 0xF0, 0x90, 0x90] ++ [0xE0, 0x90, 0xE0, 0x90, 0xE0] ++
  [0xF0, 0x80, 0x80, 0x80, 0xF0] ++ [0xE0, 0x90, 0x90, 0x90, 0xE0] ++
  [0xF0, 0x80, 0xF0, 0x80, 0xF0] ++ [0xF0, 0x80, 0xF0, 0x80, 0x80]

/-- What an address reads as when nothing has been written to it: the content RESET leaves (R61, R350). The glyph table
lies below 0x200 (R8), so the program region does not depend on FONT_BASE. -/
def resetByte (a : Nat) : Byte :=
  if Config.progBase ≤ a then 0
  else if fontBase ≤ a ∧ a < fontBase + 80 then fontData.getD (a - fontBase) 0
  else 0

/-- `mem[a]` (R12, R70). Every caller stays inside [0x000,0xFFF] by `checkRange`. -/
def Memory.read : Memory → Nat → Byte
  | [], a => resetByte a
  | (b, v) :: rest, a => if b = a then v else Memory.read rest a

/-- `mem[a] <- v` (R12, R69), keeping the canonical form. -/
def Memory.write : Memory → Nat → Byte → Memory
  | [], a, v => if v = resetByte a then [] else [(a, v)]
  | (b, u) :: rest, a, v =>
    if a < b then (if v = resetByte a then (b, u) :: rest else (a, v) :: (b, u) :: rest)
    else if a = b then (if v = resetByte a then rest else (a, v) :: rest)
    else (b, u) :: Memory.write rest a v

/-- The listed cells are at addresses from `lo` on, strictly rising, inside memory, none equal to its reset content. -/
def Memory.wfFrom : Nat → Memory → Bool
  | _, [] => true
  | lo, (a, v) :: rest =>
    decide (lo ≤ a) && decide (a < Config.memSize) && decide (v ≠ resetByte a) && Memory.wfFrom (a + 1) rest

/-- The canonical form: equal memories are equal lists. -/
def Memory.wf (m : Memory) : Bool := Memory.wfFrom 0 m

/-- The `k` bytes at ascending addresses from `a` (R67). -/
def Memory.readBytes (m : Memory) (a k : Nat) : List Byte := (List.range k).map fun h => m.read (a + h)

/-- One-byte writes at ascending addresses from `a`, in order (R67). -/
def Memory.writeBytes : Memory → Nat → List Byte → Memory
  | m, _, [] => m
  | m, a, v :: rest => Memory.writeBytes (m.write a v) (a + 1) rest

/-! ### The call stack (R24, R25) -/

/-- The entry an SP of 0..15 names. -/
def stackIx (sp : Byte) : Fin 16 := Fin.ofNat 16 sp.toNat

/-- STACK_DEPTH: with this many calls outstanding a CALL faults (R7, R24; C1). -/
def stackDepth : Nat := 15

/-! ### The random source (R312) -/

/-- The new state: `(rng * 1664525 + 1013904223) mod 2^32`. The literals stand first so that the kernel never counts one
down. -/
def nextRng (r : RngWord) : RngWord := BitVec.ofNat 32 (1013904223 + 1664525 * r.toNat)

/-- The returned byte: `rng[31:24]` of the new state. -/
def rngByte (r : RngWord) : Byte := BitVec.ofNat 8 (r.toNat / 0x1000000)

/-! ### The key flags (R273, R274) -/

/-- The least k with `key[k] = 1`, if a key is pressed. -/
def leastPressed (key : Vector Bool 16) : Option KeyIx := (List.finRange 16).find? fun k => key[k]

/-! ### Fetch (R122, R123) -/

/-- `MemRead(pc, 2)`: the big-endian word at `pc` (R13, R66, R123). -/
def fetchWord (s : State) : Word := concat8 (s.mem.read s.pc.toNat) (s.mem.read (s.pc.toNat + 1))

/-- The state an execute step sees: `pc = ipc + 2` (R123, R125). -/
def afterFetch (s : State) : State := s.setPc (s.pc + 2)

/-- `pc <- pc + 2` when `c` holds: a skip (R18, R126). -/
def State.skipIf (s : State) (c : Bool) : State := if c then s.setPc (s.pc + 2) else s

/-- The word `w` placed where the next fetch reads: at `pc`, or at RESET_PC when a fetch from `pc` would fault; no wait
step stands before it. -/
def placeWord (s : State) (w : Word) : State :=
  let a : Word := if s.pc.toNat < 0xFFF then s.pc else 0x200
  ((s.setPc a).setWait none).setMem ((s.mem.write a.toNat (highByte w)).write (a.toNat + 1) (lowByte w))

end Sys2Proof.Machine
end

