-- ==== Sys2Proof/Machine/Operands.lean ====
section
/-! DEFINITION. The operand forms (spec/30_encoding.md R92, R93; spec/43_index_memory.md R226) and the exact 8-bit results. -/

namespace Sys2Proof.Machine

/-- `V[x]` (R93). -/
def regOperand (s : State) (x : RegIx) : Byte := s.V[x]

/-- A jump target indexed by V0: the exact sum `V0 + nnn` (R157, R226). -/
def v0Target (s : State) (nnn : Word) : Word := BitVec.ofNat 16 ((regOperand s 0).toNat + nnn.toNat)

/-- The base of an access through I (R22, R226); it is not changed by the access. -/
def indexBase (s : State) : Nat := s.I.toNat

/-- The address of the glyph of digit `d`: FONT_BASE + 5*d (R62, R222). -/
def glyphAddress (d : Fin 16) : Word := BitVec.ofNat 16 (fontBase + 5 * d.val)

/-- The exact sum of I and a register (R221). -/
def indexSum (s : State) (x : RegIx) : Nat := s.I.toNat + (regOperand s x).toNat

/-- `(a + b) mod 256` (R181, R186). -/
def sumByte (a b : Byte) : Byte := BitVec.ofNat 8 (a.toNat + b.toNat)

/-- `(a - b) mod 256`, that is `(a - b + 256) mod 256` (R187, R189). -/
def differenceByte (a b : Byte) : Byte := BitVec.ofNat 8 (a.toNat + 256 - b.toNat)

/-- `a >> 1` (R188). -/
def shiftRightByte (a : Byte) : Byte := BitVec.ofNat 8 (a.toNat / 2)

/-- `(a << 1) mod 256` (R190). -/
def shiftLeftByte (a : Byte) : Byte := BitVec.ofNat 8 (a.toNat * 2)

/-- The decimal digits of a byte: hundreds, tens, ones (R223). -/
def decimalDigits (a : Byte) : List Byte :=
  [BitVec.ofNat 8 (a.toNat / 100), BitVec.ofNat 8 (a.toNat / 10 % 10), BitVec.ofNat 8 (a.toNat % 10)]

/-- The block V0..Vx, in order (R20, R224). -/
def registerBlock (s : State) (x : RegIx) : List Byte := s.V.toList.take (x.val + 1)

/-- V with V0..Vx loaded from the bytes at `base` on; the registers above Vx stay (R225). -/
def loadBlock (m : Memory) (base : Nat) (x : RegIx) (V : Vector Byte 16) : Vector Byte 16 :=
  Vector.ofFn fun r => if r.val ≤ x.val then m.read (base + r.val) else V[r]

end Sys2Proof.Machine
end

