-- ==== Sys2Proof/Machine/Alu.lean ====
section
/-! DEFINITION. Register loads, arithmetic, logic, shifts and RND (spec/42_alu.md). None can fault and none touches pc. -/

namespace Sys2Proof.Machine

/-- `VF <- flag`, then `V[x] <- result`: the write order of the flag instructions (R186 to R190, R193; D7). Both values
were computed from the operands before any write (R15). -/
def writeFlagThenResult (s : State) (x : RegIx) (flag result : Byte) : Result := .next ((s.setVF flag).setV x result)

/-- LD Vx,kk (R180). -/
def execLdKk (x : RegIx) (kk : Byte) (s : State) : Result := .next (s.setV x kk)

/-- ADD Vx,kk (R181): wraps and writes no flag. -/
def execAddKk (x : RegIx) (kk : Byte) (s : State) : Result := .next (s.setV x (sumByte (regOperand s x) kk))

/-- LD Vx,Vy (R182). -/
def execLdVy (x y : RegIx) (s : State) : Result := .next (s.setV x (regOperand s y))

/-- OR Vx,Vy (R183): VF is not reset. -/
def execOrVy (x y : RegIx) (s : State) : Result := .next (s.setV x (regOperand s x ||| regOperand s y))

/-- AND Vx,Vy (R184). -/
def execAndVy (x y : RegIx) (s : State) : Result := .next (s.setV x (regOperand s x &&& regOperand s y))

/-- XOR Vx,Vy (R185). -/
def execXorVy (x y : RegIx) (s : State) : Result := .next (s.setV x (regOperand s x ^^^ regOperand s y))

/-- ADD Vx,Vy (R186). -/
def execAddVy (x y : RegIx) (s : State) : Result :=
  let vx := regOperand s x
  let vy := regOperand s y
  writeFlagThenResult s x (carryFlag vx vy) (sumByte vx vy)

/-- SUB Vx,Vy (R187). -/
def execSubVy (x y : RegIx) (s : State) : Result :=
  let vx := regOperand s x
  let vy := regOperand s y
  writeFlagThenResult s x (greaterFlag vx vy) (differenceByte vx vy)

/-- SHR Vx (R188). -/
def execShr (x : RegIx) (s : State) : Result :=
  let vx := regOperand s x
  writeFlagThenResult s x (shiftedRightFlag vx) (shiftRightByte vx)

/-- SUBN Vx,Vy (R189). -/
def execSubnVy (x y : RegIx) (s : State) : Result :=
  let vx := regOperand s x
  let vy := regOperand s y
  writeFlagThenResult s x (greaterFlag vy vx) (differenceByte vy vx)

/-- SHL Vx (R190; C3: bit 7). -/
def execShl (x : RegIx) (s : State) : Result :=
  let vx := regOperand s x
  writeFlagThenResult s x (shiftedLeftFlag vx) (shiftLeftByte vx)

/-- RND Vx,kk (R191, R312): the random source advances exactly once, whatever kk is. -/
def execRnd (x : RegIx) (kk : Byte) (s : State) : Result :=
  let r := nextRng s.rng
  .next ((s.setRng r).setV x (rngByte r &&& kk))

end Sys2Proof.Machine
end

