-- ==== Sys2Proof/Machine/Control.lean ====
section
/-! DEFINITION. Control transfer (spec/41_control_flow.md). Every meaning runs after the fetch: `pc = ipc + 2` on entry. -/

namespace Sys2Proof.Machine

/-- RET (R150). SP above 15 is reached by no run (R24); a return through it stops (log 14). -/
def execRet (s : State) : Result :=
  if s.SP.toNat = 0 then raise .stackUnderflow s.SP.toNat
  else if s.SP.toNat > stackDepth then raise .stackOverflow s.SP.toNat
  else .next ((s.setPc s.stack[stackIx s.SP]).setSP (s.SP - 1))

/-- JP addr (R151). -/
def execJp (nnn : Word) (s : State) : Result := .next (s.setPc nnn)

/-- CALL addr (R152): increment SP, then write `stack[SP]`. SP above 15 is reached by no run (R24, log 14). -/
def execCall (nnn : Word) (s : State) : Result :=
  if s.SP.toNat ≥ stackDepth then raise .stackOverflow s.SP.toNat
  else .next (((s.setSP (s.SP + 1)).setStack (stackIx (s.SP + 1)) s.pc).setPc nnn)

/-- SE Vx,kk (R153). -/
def execSeKk (x : RegIx) (kk : Byte) (s : State) : Result := .next (s.skipIf (decide (regOperand s x = kk)))

/-- SNE Vx,kk (R154). -/
def execSneKk (x : RegIx) (kk : Byte) (s : State) : Result := .next (s.skipIf (decide (regOperand s x ≠ kk)))

/-- SE Vx,Vy (R155; C3: the comparison is with Vy). -/
def execSeVy (x y : RegIx) (s : State) : Result := .next (s.skipIf (decide (regOperand s x = regOperand s y)))

/-- SNE Vx,Vy (R156). -/
def execSneVy (x y : RegIx) (s : State) : Result := .next (s.skipIf (decide (regOperand s x ≠ regOperand s y)))

/-- JP V0,addr (R157). -/
def execJpV0 (nnn : Word) (s : State) : Result := .next (s.setPc (v0Target s nnn))

end Sys2Proof.Machine
end

