-- ==== Sys2Proof/Machine/Draw.lean ====
section
/-! DEFINITION. CLS and DRW (spec/44_display.md). -/

namespace Sys2Proof.Machine

/-- `disp[r][c]` (R29, R250). -/
def Display.cell (d : Display) (r : Fin 32) (c : Fin 64) : Bool := (d[r])[c]

/-- `disp[r][c] <- b`. -/
def Display.setCell (d : Display) (r : Fin 32) (c : Fin 64) (b : Bool) : Display := d.set r ((d[r]).set c b)

/-- The display with every cell 0 (R251). -/
def Display.blank : Display := Vector.replicate 32 (Vector.replicate 64 false)

/-- The pixel of column p of a sprite byte: bit 7-p, most significant bit first (R10, R252). -/
def spriteBit (b : Byte) (p : Nat) : Bool := b.getLsbD (7 - p)

/-- `(vx + p) mod 64` (R252). -/
def drawColumn (vx : Byte) (p : Nat) : Fin 64 := Fin.ofNat 64 (vx.toNat + p)

/-- `(vy + h) mod 32` (R252). -/
def drawLine (vy : Byte) (h : Nat) : Fin 32 := Fin.ofNat 32 (vy.toNat + h)

/-- One pixel: XOR into the cell, and a collision when a 1-bit meets a cell that is 1 (R252). The pair is the display and
whether a collision has occurred. -/
def drawPixel (r : Fin 32) (c : Fin 64) (b : Bool) (a : Display × Bool) : Display × Bool :=
  (a.1.setCell r c (a.1.cell r c ^^ b), a.2 || (b && a.1.cell r c))

/-- The 8 pixels of one sprite byte, p = 0 to 7. -/
def drawByte (vx : Byte) (r : Fin 32) (b : Byte) (a : Display × Bool) : Display × Bool :=
  (List.range 8).foldl (fun a p => drawPixel r (drawColumn vx p) (spriteBit b p) a) a

/-- The sprite rows from row h on, top to bottom. -/
def drawRows (vx vy : Byte) : Nat → List Byte → Display × Bool → Display × Bool
  | _, [], a => a
  | h, b :: rest, a => drawRows vx vy (h + 1) rest (drawByte vx (drawLine vy h) b a)

/-- CLS (R251). -/
def execCls (s : State) : Result := .next (s.setDisp Display.blank)

/-- DRW Vx,Vy,n (R252). The coordinates are read before VF is written (D7); VF is 0 unless a collision occurs; n = 0 makes
no bound check and draws nothing. -/
def execDrw (x y : RegIx) (n : Nat) (s : State) : Result :=
  let vx := regOperand s x
  let vy := regOperand s y
  let drawn := drawRows vx vy 0 (s.mem.readBytes (indexBase s) n) (s.disp, false)
  checkRange .memory s.I n (.next ((s.setDisp drawn.1).setVF (collisionFlag drawn.2)))

end Sys2Proof.Machine
end

