-- ==== Sys2Proof/Machine/Index.lean ====
section
/-! DEFINITION. Index register and memory transfers (spec/43_index_memory.md). Every range is checked whole first (R65). -/

namespace Sys2Proof.Machine

/-- LD I,addr (R220). -/
def execLdI (nnn : Word) (s : State) : Result := .next (s.setI nnn)

/-- ADD I,Vx (R221; D13): faults when the exact sum does not fit 16 bits. -/
def execAddIVx (x : RegIx) (s : State) : Result :=
  if indexSum s x > 0xFFFF then raise .indexOverflow (indexSum s x)
  else .next (s.setI (BitVec.ofNat 16 (indexSum s x)))

/-- LD F,Vx (R222; D3, D15). -/
def execLdFVx (x : RegIx) (s : State) : Result :=
  checkIndex .glyphIndex (regOperand s x) fun d => .next (s.setI (glyphAddress d))

/-- LD B,Vx (R223). -/
def execLdBVx (x : RegIx) (s : State) : Result :=
  checkRange .memory s.I 3 (.next (s.setMem (s.mem.writeBytes (indexBase s) (decimalDigits (regOperand s x)))))

/-- LD [I],Vx (R224). -/
def execLdMemVx (x : RegIx) (s : State) : Result :=
  checkRange .memory s.I (x.val + 1) (.next (s.setMem (s.mem.writeBytes (indexBase s) (registerBlock s x))))

/-- LD Vx,[I] (R225). -/
def execLdVxMem (x : RegIx) (s : State) : Result :=
  checkRange .memory s.I (x.val + 1) (.next { s with V := loadBlock s.mem (indexBase s) x s.V })

end Sys2Proof.Machine
end

