-- ==== Sys2Proof/Machine/KeyTimer.lean ====
section
/-! DEFINITION. Keyboard and timer instructions and the wait step (spec/45_timer_key.md). -/

namespace Sys2Proof.Machine

/-- SKP Vx (R270; D14). -/
def execSkp (x : RegIx) (s : State) : Result :=
  checkIndex .keyIndex (regOperand s x) fun k => .next (s.skipIf s.key[k])

/-- SKNP Vx (R271; D14). -/
def execSknp (x : RegIx) (s : State) : Result :=
  checkIndex .keyIndex (regOperand s x) fun k => .next (s.skipIf (!s.key[k]))

/-- LD Vx,DT (R272). -/
def execLdVxDt (x : RegIx) (s : State) : Result := .next (s.setV x s.DT)

/-- A key index as a register holds it. -/
def keyByte (k : KeyIx) : Byte := BitVec.ofNat 8 k.val

/-- LD Vx,K (R273; D18): with a key pressed the least one goes to Vx; else the core waits and pc stays on this
instruction. -/
def execLdVxK (x : RegIx) (s : State) : Result :=
  match leastPressed s.key with
  | some k => .next (s.setV x (keyByte k))
  | none => .next ((s.setWait (some x)).setPc (s.pc - 2))

/-- LD DT,Vx (R275). -/
def execLdDtVx (x : RegIx) (s : State) : Result := .next (s.setDT (regOperand s x))

/-- LD ST,Vx (R276). -/
def execLdStVx (x : RegIx) (s : State) : Result := .next (s.setST (regOperand s x))

/-- WaitStep (R274), run in place of fetch and execute while `wait = some x`. It cannot fault. -/
def waitStep (x : RegIx) (s : State) : State :=
  match leastPressed s.key with
  | some k => ((s.setV x (keyByte k)).setWait none).setPc (s.pc + 2)
  | none => s

end Sys2Proof.Machine
end

