-- ==== Sys2Proof/Machine/Cycle.lean ====
section
/-! DEFINITION. The CYCLE operation (spec/40_cycle.md R120): the outcome it returns and the state it leaves. -/

namespace Sys2Proof.Machine

/-- What a cycle answers: the outcome it returns beside the next state, or the fault it reports (R300). -/
abbrev CycleAnswer := Answer (CycleOutcome × State)

/-- `return Success` after the execute step (R120, R128). -/
def returnSuccess : Result → CycleAnswer
  | .next t => .next (.success, t)
  | .fault f => .fault f
  | .refused r => .refused r

/-- Decode and execute the word `w` fetched at `s.pc` (R120, R123 to R125). An unsupported word keeps the fetch's
increment of pc, changes nothing else and is returned as such (R124; D8). -/
def executeWord (s : State) (w : Word) : CycleAnswer :=
  match decode w with
  | .unsupported u => .next (.unsupportedOpcode u s.pc, afterFetch s)
  | .instr i => returnSuccess (reportFault s.pc (some w) (exec i (afterFetch s)))

/-- One CYCLE (R120, R304): the wait step first; then the fetch bound; then decode; then the instruction. -/
def runCycle (s : State) : CycleAnswer :=
  match s.wait with
  | some x => .next (.success, waitStep x s)
  | none => reportFault s.pc none (checkRange .fetch s.pc 2 (executeWord s (fetchWord s)))

/-- The state a cycle leaves, its outcome dropped. -/
def leftState : CycleAnswer → Result
  | .next (_, t) => .next t
  | .fault f => .fault f
  | .refused r => .refused r

end Sys2Proof.Machine
end

