-- ==== Sys2Proof/Machine/Step.lean ====
section
/-! DEFINITION. The step of the machine is the CYCLE operation (spec/10_state.md R35, spec/40_cycle.md R120). -/

namespace Sys2Proof.Machine

/-- One CYCLE, by the state it leaves, or the fault record it reports. Success and UnsupportedOpcode are told apart by the
outcome CYCLE returns (R300), which no state holds (R129): `cycle` (Machine/HostOps.lean) gives it (log 1). -/
def step (s : State) : Host.Outcome State Fault Refusal := leftState (runCycle s)

/-- The instruction whose bits are `w`, stored where `step` fetches its next instruction. -/
def State.withFetchWord (s : State) (nbits w : Nat) : State := placeWord s (BitVec.ofNat 16 (w % 2 ^ nbits))

end Sys2Proof.Machine
end

