-- ==== Sys2Proof/Machine/HostOps.lean ====
section
/-! DEFINITION. The host operations (spec/10_state.md R35) and the boot protocol (spec/70_reset_and_hazards.md R355, R356). -/

namespace Sys2Proof.Machine

/-! ### TICK, KEYSET, DISPREAD, RESET, LOAD as functions on the state -/

/-- A timer after one tick: one less, floored at 0 (R309, R310). -/
def tickTimer (t : Byte) : Byte := if t.toNat > 0 then t - 1 else t

/-- TICK (R309): legal in every state. -/
def State.tick (s : State) : State := (s.setDT (tickTimer s.DT)).setST (tickTimer s.ST)

/-- KEYSET (R311): the host sets or clears one key flag. -/
def State.keySet (s : State) (k : KeyIx) (pressed : Bool) : State := s.setKey k pressed

/-- DISPREAD (R254): reading changes nothing. -/
def State.dispRead (s : State) : Display := s.disp

/-- LOAD when the program fits: the bytes from 0x200 on (R353). -/
def State.loadBytes (s : State) (bytes : List Byte) : State := s.setMem (s.mem.writeBytes Config.progBase bytes)

/-- A program too long for the program region (R354). -/
def programTooLarge (bytes : List Byte) : Bool := decide (bytes.length > Config.progMax)

/-! ### CYCLE as the host sees it (R300) -/

/-- The outcome code of R300: 0 Success, 1 UnsupportedOpcode, 2 Fault (D20). -/
def CycleOutcome.code : CycleOutcome → Nat
  | .success => 0
  | .unsupportedOpcode _ _ => 1
  | .fault _ => 2

/-- The cause code of R301 (D20). -/
def Cause.code : Cause → Nat
  | .fetch => 0
  | .stackOverflow => 1
  | .stackUnderflow => 2
  | .memory => 3
  | .keyIndex => 4
  | .glyphIndex => 5
  | .indexOverflow => 6

/-- CYCLE: an outcome and a state; after a fault the state is the one the cycle began with (R127, R300). -/
def cycle (s : State) : CycleAnswer :=
  match runCycle s with
  | .next (o, t) => .next (o, t)
  | .fault f => .next (.fault f, s)
  | .refused r => .refused r

/-! ### The six operations under the boot protocol -/

/-- The six host operations (R35). -/
inductive HostOp where
  | reset (seed : RngWord)
  | load (bytes : List Byte)
  | cycle
  | tick
  | keySet (k : KeyIx) (pressed : Bool)
  | dispRead
  deriving DecidableEq, Repr

/-- What an operation returns (R35, R300, R303, R353). -/
inductive HostReply where
  | done
  | loadOk
  | programTooLarge
  | cycled (o : CycleOutcome)
  | display (d : Display)
  deriving DecidableEq, Repr

/-- Where the host stands in the boot order (R355, R356). -/
inductive Phase where
  /-- after RESET: no successful LOAD, no CYCLE -/
  | fresh
  /-- one LOAD has succeeded, no CYCLE yet -/
  | loaded
  /-- a CYCLE has run -/
  | running
  deriving DecidableEq, Repr

/-- The core and the host's place in the boot order. -/
structure Session where
  core : State
  phase : Phase
  deriving DecidableEq, Repr

/-- LOAD under the protocol (R353, R354, R355; D22): refused unless no LOAD has succeeded and no CYCLE has run. A LOAD
that fails writes no byte and does not count. DESIGN CHOICE (log 15): a LOAD that is too long, after a successful LOAD and
before the first CYCLE, is refused like any other, by D22's "any other LOAD is outside the protocol"; R355 and U16 name only
a second successful LOAD, and R354 alone would answer ProgramTooLarge. -/
def Session.load (s : Session) (bytes : List Byte) : Answer (HostReply × Session) :=
  match s.phase with
  | .fresh =>
    if programTooLarge bytes then .next (.programTooLarge, s)
    else .next (.loadOk, ⟨s.core.loadBytes bytes, .loaded⟩)
  | .loaded => .refused .loadOutsideProtocol
  | .running => .refused .loadOutsideProtocol

/-- One host operation, atomic (R35). RESET, CYCLE, TICK, KEYSET and DISPREAD are legal in every phase (R309, R352, R356). -/
def Session.perform (s : Session) : HostOp → Answer (HostReply × Session)
  | .reset seed => .next (.done, ⟨State.resetWith seed, .fresh⟩)
  | .load bytes => s.load bytes
  | .cycle =>
    match Sys2Proof.Machine.cycle s.core with
    | .next (o, t) => .next (.cycled o, ⟨t, .running⟩)
    | .fault f => .fault f
    | .refused r => .refused r
  | .tick => .next (.done, ⟨s.core.tick, s.phase⟩)
  | .keySet k pressed => .next (.done, ⟨s.core.keySet k pressed, s.phase⟩)
  | .dispRead => .next (.display s.core.dispRead, s)

/-- Any interleaving of operations (R356, R361), with the replies; it stops at a refusal. -/
def Session.performAll (s : Session) : List HostOp → Answer (List HostReply × Session)
  | [] => .next ([], s)
  | op :: rest =>
    match s.perform op with
    | .next (r, t) =>
      match t.performAll rest with
      | .next (rs, u) => .next (r :: rs, u)
      | .fault f => .fault f
      | .refused e => .refused e
    | .fault f => .fault f
    | .refused e => .refused e

end Sys2Proof.Machine
end

