-- ==== Sys2Proof/Safety.lean ====
section
/-! DEFINITION. The terms claims use: what a step leaves unchanged, the invariant of the core, a run without a fault. -/

namespace Sys2Proof.Machine

/-! ### Frames -/

/-- One piece of the state: a register, a stack entry, a display cell, a key flag, a byte of memory. -/
inductive Part where
  | reg (r : RegIx)
  | index
  | pc
  | sp
  | stackEntry (j : Fin 16)
  | dt
  | st
  | rng
  | cell (r : Fin 32) (c : Fin 64)
  | key (k : KeyIx)
  | wait
  | byte (a : Nat)
  deriving DecidableEq, Repr

/-- The part reads the same in both states. -/
def Part.Same : Part → State → State → Prop
  | .reg r, s, t => t.V[r] = s.V[r]
  | .index, s, t => t.I = s.I
  | .pc, s, t => t.pc = s.pc
  | .sp, s, t => t.SP = s.SP
  | .stackEntry j, s, t => t.stack[j] = s.stack[j]
  | .dt, s, t => t.DT = s.DT
  | .st, s, t => t.ST = s.ST
  | .rng, s, t => t.rng = s.rng
  | .cell r c, s, t => t.disp.cell r c = s.disp.cell r c
  | .key k, s, t => t.key[k] = s.key[k]
  | .wait, s, t => t.wait = s.wait
  | .byte a, s, t => t.mem.read a = s.mem.read a

/-- Every part but those of `changed` reads the same in `t` as in `s`. -/
def FrameExcept (changed : Part → Prop) (s t : State) : Prop := ∀ p, ¬ changed p → p.Same s t

/-- The `k` bytes of memory from address `a` on. -/
def bytesFrom (a k : Nat) (p : Part) : Prop := ∃ b, a ≤ b ∧ b < a + k ∧ p = .byte b

/-! ### Sprites -/

/-- The sprite of `DRW Vx,Vy,n` has a 1-bit at display cell (r, c): some row h and column p of it fall there, and bit
7-p of the byte at I + h is 1 (R252). -/
def SpritePixel (s : State) (x y : RegIx) (n : Nat) (r : Fin 32) (c : Fin 64) : Prop :=
  ∃ h p : Nat, h < n ∧ p < 8 ∧ r.val = (s.V[y].toNat + h) % 32 ∧ c.val = (s.V[x].toNat + p) % 64 ∧
    (s.mem.read (s.I.toNat + h)).getLsbD (7 - p) = true

/-! ### Which registers an instruction writes -/

/-- Register r is a destination of the instruction, apart from VF as a flag (R20, R225). -/
def writesReg (r : RegIx) : Instr → Bool
  | .ldKk x _ | .addKk x _ | .ldVy x _ | .orVy x _ | .andVy x _ | .xorVy x _ | .addVy x _ | .subVy x _ | .shr x
  | .subnVy x _ | .shl x | .rnd x _ | .ldVxDt x | .ldVxK x => decide (r = x)
  | .ldVxMem x => decide (r ≤ x)
  | .cls | .ret | .jp _ | .call _ | .seKk _ _ | .sneKk _ _ | .seVy _ _ | .sneVy _ _ | .ldI _ | .jpV0 _ | .drw _ _ _
  | .skp _ | .sknp _ | .ldDtVx _ | .ldStVx _ | .addIVx _ | .ldFVx _ | .ldBVx _ | .ldMemVx _ => false

/-- The six instructions that write VF as a flag (R21). -/
def writesFlag : Instr → Bool
  | .addVy _ _ | .subVy _ _ | .shr _ | .subnVy _ _ | .shl _ | .drw _ _ _ => true
  | .cls | .ret | .jp _ | .call _ | .seKk _ _ | .sneKk _ _ | .seVy _ _ | .ldKk _ _ | .addKk _ _ | .ldVy _ _ | .orVy _ _
  | .andVy _ _ | .xorVy _ _ | .sneVy _ _ | .ldI _ | .jpV0 _ | .rnd _ _ | .skp _ | .sknp _ | .ldVxDt _ | .ldVxK _
  | .ldDtVx _ | .ldStVx _ | .addIVx _ | .ldFVx _ | .ldBVx _ | .ldMemVx _ | .ldVxMem _ => false

/-! ### The table of fault causes -/

/-- A k-byte access at I leaves memory: cause MEMORY, value max(I, 0x1000) (R65, R301). -/
def MemoryRow (s : State) (k : Nat) (cause : Cause) (value : Nat) : Prop :=
  1 ≤ k ∧ s.I.toNat + k - 1 > 0xFFF ∧ cause = .memory ∧ value = max s.I.toNat 0x1000

/-- A register that must hold 0..15 holds more (R301). -/
def IndexRow (s : State) (x : RegIx) (expected cause : Cause) (value : Nat) : Prop :=
  s.V[x].toNat > 15 ∧ cause = expected ∧ value = s.V[x].toNat

/-- The table of R301, but for FETCH: the instruction raises this cause with this value in this state. -/
def FaultRow (i : Instr) (s : State) (cause : Cause) (value : Nat) : Prop :=
  match i with
  | .call _ => s.SP.toNat = 15 ∧ cause = .stackOverflow ∧ value = 15
  | .ret => s.SP.toNat = 0 ∧ cause = .stackUnderflow ∧ value = 0
  | .drw _ _ n => MemoryRow s n cause value
  | .ldBVx _ => MemoryRow s 3 cause value
  | .ldMemVx x | .ldVxMem x => MemoryRow s (x.val + 1) cause value
  | .skp x | .sknp x => IndexRow s x .keyIndex cause value
  | .ldFVx x => IndexRow s x .glyphIndex cause value
  | .addIVx x => s.I.toNat + s.V[x].toNat > 0xFFFF ∧ cause = .indexOverflow ∧ value = s.I.toNat + s.V[x].toNat
  | .cls | .jp _ | .seKk _ _ | .sneKk _ _ | .seVy _ _ | .ldKk _ _ | .addKk _ _ | .ldVy _ _ | .orVy _ _ | .andVy _ _
  | .xorVy _ _ | .addVy _ _ | .subVy _ _ | .shr _ | .subnVy _ _ | .shl _ | .sneVy _ _ | .ldI _ | .jpV0 _ | .rnd _ _
  | .ldVxDt _ | .ldVxK _ | .ldDtVx _ | .ldStVx _ => False

/-! ### The invariant -/

/-- What every state of a run satisfies. -/
structure State.Inv (s : State) : Prop where
  /-- memory is in its canonical form: no cell outside [0x000,0xFFF] (R60) -/
  memory : s.mem.wf = true
  /-- pc never wraps; the highest target is that of `JP V0,addr` (R33) -/
  pcBound : s.pc.toNat ≤ 0x10FE
  /-- SP holds only 0..15 (R24) -/
  spBound : s.SP.toNat ≤ 15
  /-- a pushed return address is at most 0x1000 (R33) -/
  returnBound : ∀ j : Fin 16, s.stack[j].toNat ≤ 0x1000
  /-- stack[0] is never written (R25) -/
  entryZero : s.stack[(0 : Fin 16)] = 0
  /-- while the core waits, pc holds the address of a fetched `LD Vx,K` (R31) -/
  waitPc : s.wait ≠ none → s.pc.toNat ≤ 0xFFE

/-! ### Runs -/

/-- The first `k` cycles from `s` end without a fault or a refusal. -/
def RunsWithoutFault : Nat → State → Prop
  | 0, _ => True
  | k + 1, s => ∃ t, step s = .next t ∧ RunsWithoutFault k t

end Sys2Proof.Machine
end

