-- ==== Sys2Proof/Certificates/Slice0/Obligations.lean ====
section
/-! DEFINITION. The statements for the provers. Each docstring names the rule of spec/ it formalises. Meanings run after the
fetch: `s.pc` in a statement about `exec` is the address of the instruction plus 2 (R16). -/

open Sys2Proof Sys2Proof.Machine

/-! ### Encoding -/

/-- Words written out from the encodings of R94 decode to the instructions they stand for; the last three stand for none. -/
def Obligations.SampleWordsDecode : Prop :=
  decode 0x00E0 = .instr .cls ∧ decode 0x00EE = .instr .ret ∧ decode 0x2ABC = .instr (.call 0xABC) ∧
  decode 0x3310 = .instr (.seKk 3 0x10) ∧ decode 0x9120 = .instr (.sneVy 1 2) ∧ decode 0x7202 = .instr (.addKk 2 0x02) ∧
  decode 0x8125 = .instr (.subVy 1 2) ∧ decode 0x8F36 = .instr (.shr 15) ∧ decode 0xC00F = .instr (.rnd 0 0x0F) ∧
  decode 0xA300 = .instr (.ldI 0x300) ∧ decode 0xF265 = .instr (.ldVxMem 2) ∧ decode 0xD015 = .instr (.drw 0 1 5) ∧
  decode 0xE19E = .instr (.skp 1) ∧ decode 0xF20A = .instr (.ldVxK 2) ∧ decode 0xF015 = .instr (.ldDtVx 0) ∧
  decode 0x0000 = .unsupported 0x0000 ∧ decode 0x5121 = .unsupported 0x5121 ∧ decode 0xF1FF = .unsupported 0xF1FF

/-- Every well-formed instruction survives encoding and decoding, as a word and as its two bytes, high byte first
(R90, R92, R94). -/
def Obligations.EncodeThenDecode : Prop :=
  ∀ i : Instr, i.WellFormed →
    decode (encode i) = .instr i ∧
    ∀ rest : List Byte, decodeBytes (highByte (encode i) :: lowByte (encode i) :: rest) = some (.instr i, rest)

/-- Every decoded word is the encoding of its instruction, but for the y field of SHR and SHL, which has no effect (R93,
R96): their encoding writes y as 0, decision D23 of the spec (R98, log 20). -/
def Obligations.DecodeThenEncode : Prop :=
  ∀ (w : Word) (i : Instr), decode w = .instr i →
    ((∃ x, i = .shr x ∨ i = .shl x) → encode i = w &&& 0xFF0F) ∧
    ((∀ x, i ≠ .shr x ∧ i ≠ .shl x) → encode i = w)

/-- Decoding is the table of R94: a word decodes to an instruction exactly when it matches that instruction's row, so no
word matches two rows. -/
def Obligations.DecodeFollowsOpcodeTable : Prop :=
  opcodeRows.length = 34 ∧
  (∀ (w : Word) (i : Instr), decode w = .instr i → i.row ∈ opcodeRows ∧ w &&& i.row.mask = i.row.bits) ∧
  (∀ (w : Word) (r : OpcodeRow), r ∈ opcodeRows → w &&& r.mask = r.bits → ∃ i, decode w = .instr i ∧ i.row = r)

/-- The unsupported words are exactly those R95 lists by major nibble (its counts left aside). -/
def Obligations.UnsupportedWordsAreThoseListed : Prop :=
  ∀ w : Word, decode w = .unsupported w ↔
    (w.toNat / 0x1000 = 0x0 ∧ w ≠ 0x00E0 ∧ w ≠ 0x00EE) ∨
    (w.toNat / 0x1000 = 0x5 ∧ w.toNat % 0x10 ≠ 0) ∨
    (w.toNat / 0x1000 = 0x8 ∧ w.toNat % 0x10 ∈ [0x8, 0x9, 0xA, 0xB, 0xC, 0xD, 0xF]) ∨
    (w.toNat / 0x1000 = 0x9 ∧ w.toNat % 0x10 ≠ 0) ∨
    (w.toNat / 0x1000 = 0xE ∧ w.toNat % 0x100 ∉ [0x9E, 0xA1]) ∨
    (w.toNat / 0x1000 = 0xF ∧ w.toNat % 0x100 ∉ [0x07, 0x0A, 0x15, 0x18, 0x1E, 0x29, 0x33, 0x55, 0x65])

/-! ### The cycle -/

/-- When the two bytes at pc, high byte first, decode to an instruction, a cycle is that instruction's meaning on the state
with pc moved past the word, and CYCLE returns Success; a fault it raises is reported with the address and the word, and
CYCLE returns it with the state it began with (R120, R123, R127, R128; the whole cycle is undone by D9, log 11). -/
def Obligations.StepRunsDecodedInstruction : Prop :=
  ∀ (s : State) (w : Word) (i : Instr), s.wait = none → s.pc.toNat ≤ 0xFFE →
    w.toNat = (s.mem.read s.pc.toNat).toNat * 0x100 + (s.mem.read (s.pc.toNat + 1)).toNat →
    decode w = .instr i →
    let fetched : State := { s with pc := s.pc + 2 }
    (∀ t, exec i fetched = .next t → step s = .next t ∧ cycle s = .next (.success, t)) ∧
    (∀ cause value, exec i fetched = .fault (.raised cause value) →
      step s = .fault (.outOfBounds cause value s.pc (some w)) ∧
      cycle s = .next (.fault (.outOfBounds cause value s.pc (some w)), s))

/-- A fetch whose two bytes do not both lie in memory faults with FETCH, the first address outside, the failing pc and no
opcode (R122, R301; that the fault comes at the fetch is D11, the value D20, log 9). -/
def Obligations.FetchOutsideMemoryFaults : Prop :=
  ∀ s : State, s.wait = none → s.pc.toNat ≥ 0xFFF →
    step s = .fault (.outOfBounds .fetch (max s.pc.toNat 0x1000) s.pc none)

/-- An unsupported word moves pc past itself and changes nothing else, and CYCLE returns UnsupportedOpcode with the word and
its address (R124; D8, log 8). -/
def Obligations.UnsupportedWordIsReportedAndSkipped : Prop :=
  ∀ (s : State) (w : Word), s.wait = none → s.pc.toNat ≤ 0xFFE →
    w.toNat = (s.mem.read s.pc.toNat).toNat * 0x100 + (s.mem.read (s.pc.toNat + 1)).toNat →
    decode w = .unsupported w →
    ∃ t, step s = .next t ∧ cycle s = .next (.unsupportedOpcode w s.pc, t) ∧ t.pc = s.pc + 2 ∧
      FrameExcept (fun p => p = .pc) s t

/-- Every CYCLE returns exactly one outcome (R300), and which: Fault with the state as it was, where the step faults (R127;
D9, log 11); UnsupportedOpcode with the fetched word, where the core does not wait and the word matches no row (R124);
Success where it waits or the word decodes (R128). Nothing is refused. -/
def Obligations.CycleReturnsOneOutcome : Prop :=
  ∀ s : State, ∃ o t, cycle s = .next (o, t) ∧
    ((∃ f, o = .fault f ∧ step s = .fault f ∧ t = s) ∨
     (o = .success ∧ step s = .next t ∧ (s.wait ≠ none ∨ ∃ i, decode (fetchWord s) = .instr i)) ∨
     (o = .unsupportedOpcode (fetchWord s) s.pc ∧ step s = .next t ∧ s.wait = none ∧
       decode (fetchWord s) = .unsupported (fetchWord s)))

/-- Which cycle faults, and the record it returns: the fetch bound first, then the executing instruction's own row of R301
(R122, R127, R304). SP is at most 15, as in every state of a run (R24). Causes and values are D13 to D15 and D20. -/
def Obligations.FaultReportIsExact : Prop :=
  ∀ (s : State) (f : Fault), s.SP.toNat ≤ 15 →
    (step s = .fault f ↔
      s.wait = none ∧
      ((s.pc.toNat ≥ 0xFFF ∧ f = .outOfBounds .fetch (max s.pc.toNat 0x1000) s.pc none) ∨
       (s.pc.toNat ≤ 0xFFE ∧ ∃ i cause value, decode (fetchWord s) = .instr i ∧
          FaultRow i (afterFetch s) cause value ∧ f = .outOfBounds cause value s.pc (some (fetchWord s)))))

/-- The table of fault causes: an instruction raises a cause exactly as its row of R301 says, and without one it
completes. SP is at most 15 (R24). KEY_INDEX, GLYPH_INDEX and INDEX_OVERFLOW are D13 to D15, the values D20 (log 10). -/
def Obligations.FaultCausesAreThoseOfTheTable : Prop :=
  ∀ (i : Instr) (s : State), s.SP.toNat ≤ 15 →
    (∀ f, exec i s = .fault f ↔ ∃ cause value, f = .raised cause value ∧ FaultRow i s cause value) ∧
    ((∀ cause value, ¬ FaultRow i s cause value) → ∃ t, exec i s = .next t)

/-- A fault repeats at every later CYCLE, with the same record, whatever TICKs, KEYSETs and DISPREADs come between (R131):
RESET is left out, and LOAD, which is refused after a CYCLE. -/
def Obligations.FaultIsSticky : Prop :=
  ∀ (s : State) (f : Fault) (ops : List HostOp), step s = .fault f →
    (∀ seed, HostOp.reset seed ∉ ops) → (∀ bytes, HostOp.load bytes ∉ ops) →
    ∃ replies t, Session.performAll ⟨s, .running⟩ ops = .next (replies, t) ∧ step t.core = .fault f ∧
      ∀ o, HostReply.cycled o ∈ replies → o = .fault f

/-! ### Control transfer -/

/-- JP addr (R151): its encoding; pc becomes nnn; nothing else changes; it never faults. -/
def Obligations.JumpSetsPc : Prop :=
  (∀ nnn : Nat, nnn < 0x1000 → decode (BitVec.ofNat 16 (0x1000 + nnn)) = .instr (.jp (BitVec.ofNat 16 nnn))) ∧
  ∀ (nnn : Word) (s : State), ∃ t, exec (.jp nnn) s = .next t ∧ t.pc = nnn ∧ FrameExcept (fun p => p = .pc) s t

/-- CALL addr (R152; limit 15 by C1): with fewer than 15 calls outstanding SP is incremented, then stack[SP] holds the
address after the CALL and pc is nnn; with 15 it faults with STACK_OVERFLOW (value D20). -/
def Obligations.CallPushesReturnAddress : Prop :=
  ∀ (nnn : Word) (s : State),
    (s.SP.toNat < 15 → ∃ t, exec (.call nnn) s = .next t ∧ t.SP.toNat = s.SP.toNat + 1 ∧ t.pc = nnn ∧
      (∀ j : Fin 16, j.val = s.SP.toNat + 1 → t.stack[j] = s.pc) ∧
      FrameExcept (fun p => p = .pc ∨ p = .sp ∨ ∃ j : Fin 16, j.val = s.SP.toNat + 1 ∧ p = .stackEntry j) s t) ∧
    (s.SP.toNat = 15 → exec (.call nnn) s = .fault (.raised .stackOverflow 15))

/-- RET (R150; the guard by C3): pc is stack[SP] and SP is decremented, the entry keeps its value; with no call outstanding
it faults with STACK_UNDERFLOW (value D20). -/
def Obligations.ReturnPopsAddress : Prop :=
  ∀ s : State,
    (1 ≤ s.SP.toNat → s.SP.toNat ≤ 15 → ∃ t, exec .ret s = .next t ∧ t.SP.toNat = s.SP.toNat - 1 ∧
      (∀ j : Fin 16, j.val = s.SP.toNat → t.pc = s.stack[j]) ∧ FrameExcept (fun p => p = .pc ∨ p = .sp) s t) ∧
    (s.SP.toNat = 0 → exec .ret s = .fault (.raised .stackUnderflow 0))

/-- Model's choice (log 14): with SP above 15, which no run reaches (R24), CALL and RET stop. -/
def Obligations.StackPointerAboveFifteenStops : Prop :=
  ∀ (nnn : Word) (s : State), s.SP.toNat > 15 →
    exec (.call nnn) s = .fault (.raised .stackOverflow s.SP.toNat) ∧
    exec .ret s = .fault (.raised .stackOverflow s.SP.toNat)

/-- CALL followed later by RET restores pc to the address after the CALL, and SP (the document's scenario, R152, R150): the
RET may come after anything, nested calls too, that leaves SP and the one entry the CALL pushed as they were. -/
def Obligations.CallThenReturnRestoresPc : Prop :=
  ∀ (nnn : Word) (s : State), s.SP.toNat < 15 → ∃ t, exec (.call nnn) s = .next t ∧
    ∀ u : State, u.SP = t.SP → (∀ j : Fin 16, j.val = t.SP.toNat → u.stack[j] = t.stack[j]) →
      ∃ v, exec .ret u = .next v ∧ v.pc = s.pc ∧ v.SP = s.SP

/-- SE Vx,kk and SNE Vx,kk (R153, R154): their encodings; pc moves a further 2 exactly when Vx equals kk, or does not;
nothing else changes; they never fault. -/
def Obligations.SkipsOnImmediate : Prop :=
  (∀ (x : RegIx) (kk : Byte),
    decode (BitVec.ofNat 16 (0x3000 + x.val * 0x100 + kk.toNat)) = .instr (.seKk x kk) ∧
    decode (BitVec.ofNat 16 (0x4000 + x.val * 0x100 + kk.toNat)) = .instr (.sneKk x kk)) ∧
  ∀ (x : RegIx) (kk : Byte) (s : State),
    (∃ t, exec (.seKk x kk) s = .next t ∧ t.pc = (if s.V[x] = kk then s.pc + 2 else s.pc) ∧
      FrameExcept (fun p => p = .pc) s t) ∧
    (∃ t, exec (.sneKk x kk) s = .next t ∧ t.pc = (if s.V[x] = kk then s.pc else s.pc + 2) ∧
      FrameExcept (fun p => p = .pc) s t)

/-- SE Vx,Vy and SNE Vx,Vy (R155, R156; the comparison with Vy by C3): their encodings, with a last nibble other than 0
unsupported; pc moves a further 2 exactly when Vx equals Vy, or does not; nothing else changes; they never fault. -/
def Obligations.SkipsOnRegisters : Prop :=
  (∀ x y : RegIx,
    decode (BitVec.ofNat 16 (0x5000 + x.val * 0x100 + y.val * 0x10)) = .instr (.seVy x y) ∧
    decode (BitVec.ofNat 16 (0x9000 + x.val * 0x100 + y.val * 0x10)) = .instr (.sneVy x y)) ∧
  (∀ (x y : RegIx) (n : Nat), 1 ≤ n → n < 16 →
    (∃ u, decode (BitVec.ofNat 16 (0x5000 + x.val * 0x100 + y.val * 0x10 + n)) = .unsupported u) ∧
    (∃ u, decode (BitVec.ofNat 16 (0x9000 + x.val * 0x100 + y.val * 0x10 + n)) = .unsupported u)) ∧
  ∀ (x y : RegIx) (s : State),
    (∃ t, exec (.seVy x y) s = .next t ∧ t.pc = (if s.V[x] = s.V[y] then s.pc + 2 else s.pc) ∧
      FrameExcept (fun p => p = .pc) s t) ∧
    (∃ t, exec (.sneVy x y) s = .next t ∧ t.pc = (if s.V[x] = s.V[y] then s.pc else s.pc + 2) ∧
      FrameExcept (fun p => p = .pc) s t)

/-- JP V0,addr (R157): pc is the exact sum of V0 and nnn, even above 0xFFF; nothing else changes. That a target above 0xFFE
faults only at the next fetch is D11 (log 9) and is FetchOutsideMemoryFaults. -/
def Obligations.JumpV0AddsExactly : Prop :=
  ∀ (nnn : Word) (s : State), nnn.toNat < 0x1000 →
    ∃ t, exec (.jpV0 nnn) s = .next t ∧ t.pc.toNat = s.V[(0 : RegIx)].toNat + nnn.toNat ∧
      FrameExcept (fun p => p = .pc) s t

/-! ### Register loads, arithmetic, logic -/

/-- LD Vx,kk and LD Vx,Vy (R180, R182): their encodings; Vx gets kk, or the value of Vy; nothing else changes, VF included
unless x = 15; they never fault. -/
def Obligations.LoadsRegister : Prop :=
  (∀ (x y : RegIx) (kk : Byte),
    decode (BitVec.ofNat 16 (0x6000 + x.val * 0x100 + kk.toNat)) = .instr (.ldKk x kk) ∧
    decode (BitVec.ofNat 16 (0x8000 + x.val * 0x100 + y.val * 0x10)) = .instr (.ldVy x y)) ∧
  ∀ (x y : RegIx) (kk : Byte) (s : State),
    (∃ t, exec (.ldKk x kk) s = .next t ∧ t.V[x] = kk ∧ FrameExcept (fun p => p = .reg x) s t) ∧
    (∃ t, exec (.ldVy x y) s = .next t ∧ t.V[x] = s.V[y] ∧ FrameExcept (fun p => p = .reg x) s t)

/-- ADD Vx,kk (R181; the wrap by C3): its encoding; Vx gets the sum modulo 256; nothing else changes, VF included unless
x = 15; it never faults. -/
def Obligations.AddImmediateWraps : Prop :=
  (∀ (x : RegIx) (kk : Byte), decode (BitVec.ofNat 16 (0x7000 + x.val * 0x100 + kk.toNat)) = .instr (.addKk x kk)) ∧
  ∀ (x : RegIx) (kk : Byte) (s : State),
    ∃ t, exec (.addKk x kk) s = .next t ∧ t.V[x].toNat = (s.V[x].toNat + kk.toNat) % 256 ∧
      FrameExcept (fun p => p = .reg x) s t

/-- OR, AND and XOR (R183, R184, R185): their encodings; bit by bit Vx gets the combination of Vx and Vy; nothing else
changes, VF included unless x = 15; they never fault. -/
def Obligations.BitwiseLogic : Prop :=
  (∀ x y : RegIx,
    decode (BitVec.ofNat 16 (0x8001 + x.val * 0x100 + y.val * 0x10)) = .instr (.orVy x y) ∧
    decode (BitVec.ofNat 16 (0x8002 + x.val * 0x100 + y.val * 0x10)) = .instr (.andVy x y) ∧
    decode (BitVec.ofNat 16 (0x8003 + x.val * 0x100 + y.val * 0x10)) = .instr (.xorVy x y)) ∧
  ∀ (x y : RegIx) (s : State),
    (∃ t, exec (.orVy x y) s = .next t ∧
      (∀ k, t.V[x].getLsbD k = (s.V[x].getLsbD k || s.V[y].getLsbD k)) ∧ FrameExcept (fun p => p = .reg x) s t) ∧
    (∃ t, exec (.andVy x y) s = .next t ∧
      (∀ k, t.V[x].getLsbD k = (s.V[x].getLsbD k && s.V[y].getLsbD k)) ∧ FrameExcept (fun p => p = .reg x) s t) ∧
    (∃ t, exec (.xorVy x y) s = .next t ∧
      (∀ k, t.V[x].getLsbD k = (s.V[x].getLsbD k ^^ s.V[y].getLsbD k)) ∧ FrameExcept (fun p => p = .reg x) s t)

/-- ADD Vx,Vy (R186): Vx gets the sum modulo 256 and VF the carry. For x = 15 the sum is what VF keeps: decision D7 of the
spec (log 7). -/
def Obligations.AddWritesCarry : Prop :=
  ∀ (x y : RegIx) (s : State), ∃ t, exec (.addVy x y) s = .next t ∧
    t.V[x].toNat = (s.V[x].toNat + s.V[y].toNat) % 256 ∧
    (x ≠ 15 → t.V[(15 : RegIx)] = if s.V[x].toNat + s.V[y].toNat > 255 then 1 else 0) ∧
    FrameExcept (fun p => p = .reg x ∨ p = .reg 15) s t

/-- SUB Vx,Vy and SUBN Vx,Vy (R187, R189): Vx gets the difference modulo 256 and VF is 1 exactly when the minuend is
strictly greater. For x = 15 the difference is what VF keeps: decision D7 of the spec (log 7). -/
def Obligations.SubtractWritesStrictGreater : Prop :=
  ∀ (x y : RegIx) (s : State),
    (∃ t, exec (.subVy x y) s = .next t ∧
      t.V[x].toNat = (s.V[x].toNat + 256 - s.V[y].toNat) % 256 ∧
      (x ≠ 15 → t.V[(15 : RegIx)] = if s.V[x].toNat > s.V[y].toNat then 1 else 0) ∧
      FrameExcept (fun p => p = .reg x ∨ p = .reg 15) s t) ∧
    (∃ t, exec (.subnVy x y) s = .next t ∧
      t.V[x].toNat = (s.V[y].toNat + 256 - s.V[x].toNat) % 256 ∧
      (x ≠ 15 → t.V[(15 : RegIx)] = if s.V[y].toNat > s.V[x].toNat then 1 else 0) ∧
      FrameExcept (fun p => p = .reg x ∨ p = .reg 15) s t)

/-- SHR Vx and SHL Vx (R188, R190; bit 7 by C3), whatever the ignored y field: Vx moves by one bit, a 0 moves in, VF gets
the bit shifted out. For x = 15 the result is what VF keeps: decision D7 of the spec (log 7). -/
def Obligations.ShiftsWriteBitShiftedOut : Prop :=
  (∀ x y : RegIx,
    decode (BitVec.ofNat 16 (0x8006 + x.val * 0x100 + y.val * 0x10)) = .instr (.shr x) ∧
    decode (BitVec.ofNat 16 (0x800E + x.val * 0x100 + y.val * 0x10)) = .instr (.shl x)) ∧
  ∀ (x : RegIx) (s : State),
    (∃ t, exec (.shr x) s = .next t ∧ t.V[x].toNat = s.V[x].toNat / 2 ∧
      (x ≠ 15 → t.V[(15 : RegIx)] = if s.V[x].getLsbD 0 then 1 else 0) ∧
      FrameExcept (fun p => p = .reg x ∨ p = .reg 15) s t) ∧
    (∃ t, exec (.shl x) s = .next t ∧ t.V[x].toNat = s.V[x].toNat * 2 % 256 ∧
      (x ≠ 15 → t.V[(15 : RegIx)] = if s.V[x].getLsbD 7 then 1 else 0) ∧
      FrameExcept (fun p => p = .reg x ∨ p = .reg 15) s t)

/-- RND Vx,kk (R191, with the step of R312): its encoding; rng advances once, whatever kk is; Vx gets the top byte of the
new rng AND kk; nothing else changes, VF included unless x = 15; it never faults. -/
def Obligations.RandomByteAdvancesOnce : Prop :=
  (∀ (x : RegIx) (kk : Byte), decode (BitVec.ofNat 16 (0xC000 + x.val * 0x100 + kk.toNat)) = .instr (.rnd x kk)) ∧
  ∀ (x : RegIx) (kk : Byte) (s : State), ∃ t, exec (.rnd x kk) s = .next t ∧
    t.rng.toNat = (s.rng.toNat * 1664525 + 1013904223) % 4294967296 ∧
    (∀ k, t.V[x].getLsbD k = (decide (k < 8) && t.rng.getLsbD (24 + k) && kk.getLsbD k)) ∧
    FrameExcept (fun p => p = .reg x ∨ p = .rng) s t

/-! ### Index register and memory -/

/-- LD I,addr (R220): its encoding; I gets nnn zero-extended, any nnn; nothing else changes; it never faults. -/
def Obligations.LoadIndex : Prop :=
  (∀ nnn : Nat, nnn < 0x1000 → decode (BitVec.ofNat 16 (0xA000 + nnn)) = .instr (.ldI (BitVec.ofNat 16 nnn))) ∧
  ∀ (nnn : Word) (s : State), ∃ t, exec (.ldI nnn) s = .next t ∧ t.I = nnn ∧ FrameExcept (fun p => p = .index) s t

/-- ADD I,Vx (R221): a sum that fits 16 bits goes to I, above 0xFFF too, and VF is unchanged; one that does not faults with
INDEX_OVERFLOW and the sum: decision D13 of the spec (log 10). -/
def Obligations.AddIndex : Prop :=
  ∀ (x : RegIx) (s : State),
    (s.I.toNat + s.V[x].toNat ≤ 0xFFFF → ∃ t, exec (.addIVx x) s = .next t ∧
      t.I.toNat = s.I.toNat + s.V[x].toNat ∧ FrameExcept (fun p => p = .index) s t) ∧
    (s.I.toNat + s.V[x].toNat > 0xFFFF →
      exec (.addIVx x) s = .fault (.raised .indexOverflow (s.I.toNat + s.V[x].toNat)))

/-- LD F,Vx (R222), for every FONT_BASE (D3): I points at the glyph of digit Vx, 5 bytes a glyph, which RESET put inside the
reserved region; above 15 it faults with GLYPH_INDEX: decision D15 of the spec (log 10). The glyph bytes are D4 (log 4). -/
def Obligations.GlyphAddressOfDigit : Prop :=
  ∀ (x : RegIx) (s : State),
    (s.V[x].toNat ≤ 15 → ∃ t, exec (.ldFVx x) s = .next t ∧
      t.I.toNat = fontBase + 5 * s.V[x].toNat ∧ t.I.toNat + 5 ≤ 0x200 ∧
      (∀ (seed : RngWord) (h : Nat), h < 5 →
        (State.resetWith seed).mem.read (t.I.toNat + h) = fontData.getD (5 * s.V[x].toNat + h) 0) ∧
      FrameExcept (fun p => p = .index) s t) ∧
    (s.V[x].toNat > 15 → exec (.ldFVx x) s = .fault (.raised .glyphIndex s.V[x].toNat))

/-- LD B,Vx (R223): the decimal digits of Vx go to I, I+1, I+2 and nothing else changes; a range that leaves memory faults
with MEMORY before any byte is written (D10, D20; log 11). Memory is in its canonical form, as in every state of a run. -/
def Obligations.StoresDecimalDigits : Prop :=
  ∀ (x : RegIx) (s : State), s.mem.wf = true →
    (s.I.toNat + 2 ≤ 0xFFF → ∃ t, exec (.ldBVx x) s = .next t ∧
      (t.mem.read s.I.toNat).toNat = s.V[x].toNat / 100 ∧
      (t.mem.read (s.I.toNat + 1)).toNat = s.V[x].toNat / 10 % 10 ∧
      (t.mem.read (s.I.toNat + 2)).toNat = s.V[x].toNat % 10 ∧
      FrameExcept (bytesFrom s.I.toNat 3) s t ∧ t.mem.wf = true) ∧
    (s.I.toNat + 2 > 0xFFF → exec (.ldBVx x) s = .fault (.raised .memory (max s.I.toNat 0x1000)))

/-- LD [I],Vx (R224): V0..Vx go to I..I+x and nothing else changes, I included; a range that leaves memory faults with
MEMORY before any byte is written (D10, D20; log 11). Memory is in its canonical form, as in every state of a run. -/
def Obligations.StoresRegisterBlock : Prop :=
  ∀ (x : RegIx) (s : State), s.mem.wf = true →
    (s.I.toNat + x.val ≤ 0xFFF → ∃ t, exec (.ldMemVx x) s = .next t ∧
      (∀ r : RegIx, r ≤ x → t.mem.read (s.I.toNat + r.val) = s.V[r]) ∧
      FrameExcept (bytesFrom s.I.toNat (x.val + 1)) s t ∧ t.mem.wf = true) ∧
    (s.I.toNat + x.val > 0xFFF → exec (.ldMemVx x) s = .fault (.raised .memory (max s.I.toNat 0x1000)))

/-- LD Vx,[I] (R225): V0..Vx get the bytes at I..I+x and nothing else changes, I and memory included; a range that leaves
memory faults with MEMORY before any register is written (D10, D20; log 11). -/
def Obligations.LoadsRegisterBlock : Prop :=
  ∀ (x : RegIx) (s : State),
    (s.I.toNat + x.val ≤ 0xFFF → ∃ t, exec (.ldVxMem x) s = .next t ∧
      (∀ r : RegIx, r ≤ x → t.V[r] = s.mem.read (s.I.toNat + r.val)) ∧
      FrameExcept (fun p => ∃ r : RegIx, r ≤ x ∧ p = .reg r) s t) ∧
    (s.I.toNat + x.val > 0xFFF → exec (.ldVxMem x) s = .fault (.raised .memory (max s.I.toNat 0x1000)))

/-- Storing V0..Vx and loading them again from the same I restores them, whatever the registers hold in between (the
document's round trip, R225). -/
def Obligations.StoreThenLoadRestoresRegisters : Prop :=
  ∀ (x : RegIx) (s t : State), s.mem.wf = true → exec (.ldMemVx x) s = .next t →
    ∀ u : State, u.mem = t.mem → u.I = s.I →
      ∃ v, exec (.ldVxMem x) u = .next v ∧ ∀ r : RegIx, r ≤ x → v.V[r] = s.V[r]

/-- A byte stored by LD [I],Vx or LD B,Vx is what the very next fetch reads, as the high byte of the word or as its low byte,
whether or not the other byte was stored too, with no fence between (R72: decision D17 of the spec, log 12). -/
def Obligations.StoredBytesAreFetchedNext : Prop :=
  ∀ (x : RegIx) (s t : State), s.mem.wf = true →
    (exec (.ldMemVx x) s = .next t → ∀ r : RegIx, r ≤ x →
      (t.pc.toNat = s.I.toNat + r.val → (fetchWord t).toNat / 0x100 = s.V[r].toNat) ∧
      (t.pc.toNat + 1 = s.I.toNat + r.val → (fetchWord t).toNat % 0x100 = s.V[r].toNat)) ∧
    (exec (.ldBVx x) s = .next t → ∀ k digit : Nat,
      (k = 0 ∧ digit = s.V[x].toNat / 100) ∨ (k = 1 ∧ digit = s.V[x].toNat / 10 % 10) ∨
        (k = 2 ∧ digit = s.V[x].toNat % 10) →
      (t.pc.toNat = s.I.toNat + k → (fetchWord t).toNat / 0x100 = digit) ∧
      (t.pc.toNat + 1 = s.I.toNat + k → (fetchWord t).toNat % 0x100 = digit))

/-- The canonical form of memory: memories that read alike at every address are equal data. The form is the model's own. -/
def Obligations.CanonicalMemoriesAreEqualData : Prop :=
  ∀ m n : Memory, m.wf = true → n.wf = true → (∀ a, m.read a = n.read a) → m = n

/-! ### Display -/

/-- CLS (R251): its encoding; every display cell becomes 0; nothing else changes; it never faults. No other instruction but
DRW, which inverts cells, changes the display. -/
def Obligations.ClearsDisplay : Prop :=
  decode 0x00E0 = .instr .cls ∧
  (∀ s : State, ∃ t, exec .cls s = .next t ∧ (∀ r c, t.disp.cell r c = false) ∧
    FrameExcept (fun p => ∃ r c, p = .cell r c) s t) ∧
  ∀ (i : Instr) (s t : State), i ≠ .cls → (∀ x y n, i ≠ .drw x y n) → exec i s = .next t → t.disp = s.disp

/-- DRW Vx,Vy,n (R252): exactly the cells under a 1-bit of the sprite are inverted, wrapping on both axes; VF is 1 if a 1-bit
met a cell that was 1, else 0; nothing else changes; n = 0 makes no bound check. That VF as a coordinate is read before it is
written is decision D7 of the spec (log 7). -/
def Obligations.DrawInvertsSpriteCells : Prop :=
  ∀ (x y : RegIx) (n : Nat) (s : State), n < 16 → (n = 0 ∨ s.I.toNat + n - 1 ≤ 0xFFF) →
    ∃ t, exec (.drw x y n) s = .next t ∧
      (∀ r c, SpritePixel s x y n r c → t.disp.cell r c = !s.disp.cell r c) ∧
      (∀ r c, ¬ SpritePixel s x y n r c → t.disp.cell r c = s.disp.cell r c) ∧
      ((∃ r c, SpritePixel s x y n r c ∧ s.disp.cell r c = true) → t.V[(15 : RegIx)] = 1) ∧
      ((¬ ∃ r c, SpritePixel s x y n r c ∧ s.disp.cell r c = true) → t.V[(15 : RegIx)] = 0) ∧
      FrameExcept (fun p => p = .reg 15 ∨ ∃ r c, p = .cell r c) s t

/-- Collision law (R253): VF is 1 exactly when some cell went from 1 to 0. Drawing again at the same place with the same I
restores every cell, and sets VF to 1 exactly when a 1-bit of the sprite lies on a cell that was 0 before the first draw. So
after a first draw without collision, the second sets VF exactly when the sprite has a 1-bit. R253 says that last without
the premise, which its own source R252 contradicts: DEDUCED, log 22. -/
def Obligations.DrawTwiceRestoresDisplay : Prop :=
  ∀ (x y : RegIx) (n : Nat) (s t : State), n < 16 → exec (.drw x y n) s = .next t →
    (t.V[(15 : RegIx)] = 1 ↔ ∃ r c, s.disp.cell r c = true ∧ t.disp.cell r c = false) ∧
    ∀ u : State, u.disp = t.disp → u.mem = s.mem → u.I = s.I → u.V[x] = s.V[x] → u.V[y] = s.V[y] →
      ∃ v, exec (.drw x y n) u = .next v ∧ v.disp = s.disp ∧
        (v.V[(15 : RegIx)] = 1 ↔ ∃ r c, SpritePixel s x y n r c ∧ s.disp.cell r c = false) ∧
        (t.V[(15 : RegIx)] = 0 → (v.V[(15 : RegIx)] = 1 ↔
          ∃ h p, h < n ∧ p < 8 ∧ (s.mem.read (s.I.toNat + h)).getLsbD (7 - p) = true))

/-- The document's scenario: with I set to glyph '0' by LD F, V0 = V1 = 0 and a clear display after RESET (decision D6 of the
spec, log 6), `DRW V0,V1,5` lights the 14 cells of the glyph in (0,0)-(3,4) and VF is 0, for every FONT_BASE and SEED. The
glyph bytes are D4 (log 4). -/
def Obligations.GlyphZeroIsDrawn : Prop :=
  ∀ seed : RngWord, ∃ t u, exec (.ldFVx 0) (State.resetWith seed) = .next t ∧ exec (.drw 0 1 5) t = .next u ∧
    u.V[(15 : RegIx)] = 0 ∧
    ∀ (r : Fin 32) (c : Fin 64), u.disp.cell r c = true ↔
      (c.val, r.val) ∈ [(0, 0), (1, 0), (2, 0), (3, 0), (0, 1), (3, 1), (0, 2), (3, 2), (0, 3), (3, 3),
        (0, 4), (1, 4), (2, 4), (3, 4)]

/-! ### Keys and timers -/

/-- SKP Vx and SKNP Vx (R270, R271): pc moves a further 2 exactly when key Vx is pressed, or is not; nothing else changes;
above 15 they fault with KEY_INDEX: decision D14 of the spec (log 10). -/
def Obligations.KeySkips : Prop :=
  ∀ (x : RegIx) (s : State),
    (∀ k : KeyIx, k.val = s.V[x].toNat →
      (∃ t, exec (.skp x) s = .next t ∧ t.pc = (if s.key[k] then s.pc + 2 else s.pc) ∧
        FrameExcept (fun p => p = .pc) s t) ∧
      (∃ t, exec (.sknp x) s = .next t ∧ t.pc = (if s.key[k] then s.pc else s.pc + 2) ∧
        FrameExcept (fun p => p = .pc) s t)) ∧
    (s.V[x].toNat > 15 →
      exec (.skp x) s = .fault (.raised .keyIndex s.V[x].toNat) ∧
      exec (.sknp x) s = .fault (.raised .keyIndex s.V[x].toNat))

/-- LD Vx,K (R273): with a key pressed the least pressed index goes to Vx and execution continues; with none the core waits
for register x and pc is back on the instruction. The wait field and level keys are decision D18 of the spec (log 13). -/
def Obligations.WaitForKeyBegins : Prop :=
  ∀ (x : RegIx) (s : State),
    (∀ k : KeyIx, s.key[k] = true → (∀ j : KeyIx, j < k → s.key[j] = false) →
      ∃ t, exec (.ldVxK x) s = .next t ∧ t.V[x].toNat = k.val ∧ FrameExcept (fun p => p = .reg x) s t) ∧
    ((∀ k : KeyIx, s.key[k] = false) →
      ∃ t, exec (.ldVxK x) s = .next t ∧ t.wait = some x ∧ t.pc = s.pc - 2 ∧
        FrameExcept (fun p => p = .wait ∨ p = .pc) s t)

/-- A waiting cycle (R121, R274) runs only the wait step, wherever pc points, and cannot fault: with a key pressed the least
index goes to the saved register, the wait ends and pc moves by 2; with none nothing changes. CYCLE returns Success (D18,
log 13). -/
def Obligations.WaitStepPollsKeys : Prop :=
  ∀ (x : RegIx) (s : State), s.wait = some x →
    (∀ k : KeyIx, s.key[k] = true → (∀ j : KeyIx, j < k → s.key[j] = false) →
      ∃ t, step s = .next t ∧ cycle s = .next (.success, t) ∧ t.V[x].toNat = k.val ∧ t.wait = none ∧ t.pc = s.pc + 2 ∧
        FrameExcept (fun p => p = .reg x ∨ p = .wait ∨ p = .pc) s t) ∧
    ((∀ k : KeyIx, s.key[k] = false) → step s = .next s ∧ cycle s = .next (.success, s))

/-- The net effect of a whole wait (R274): however many cycles found no key, once keys are pressed the state is that of a
single LD Vx,K that found them at once (D18, log 13). -/
def Obligations.WaitHasNetEffectOfOneLoad : Prop :=
  ∀ (x : RegIx) (s : State) (n : Nat) (pressed : Vector Bool 16), s.wait = none → s.pc.toNat ≤ 0xFFE →
    decode (fetchWord s) = .instr (.ldVxK x) → (∀ k : KeyIx, s.key[k] = false) → (∃ k : KeyIx, pressed[k] = true) →
    ∃ t, Host.Core.run core (n + 1) s = .next t ∧
      ∃ u, step { t with key := pressed } = .next u ∧ step { s with key := pressed } = .next u

/-- LD Vx,DT, LD DT,Vx and LD ST,Vx (R272, R275, R276): their encodings; Vx gets DT, DT gets Vx, ST gets Vx; nothing else
changes; they never fault. No instruction but LD DT,Vx writes DT. That ST is never read is SoundTimerIsNeverRead. -/
def Obligations.TimerLoads : Prop :=
  (∀ x : RegIx,
    decode (BitVec.ofNat 16 (0xF007 + x.val * 0x100)) = .instr (.ldVxDt x) ∧
    decode (BitVec.ofNat 16 (0xF015 + x.val * 0x100)) = .instr (.ldDtVx x) ∧
    decode (BitVec.ofNat 16 (0xF018 + x.val * 0x100)) = .instr (.ldStVx x)) ∧
  (∀ (i : Instr) (s t : State), exec i s = .next t → (∀ x, i ≠ .ldDtVx x) → t.DT = s.DT) ∧
  ∀ (x : RegIx) (s : State),
    (∃ t, exec (.ldVxDt x) s = .next t ∧ t.V[x] = s.DT ∧ FrameExcept (fun p => p = .reg x) s t) ∧
    (∃ t, exec (.ldDtVx x) s = .next t ∧ t.DT = s.V[x] ∧ FrameExcept (fun p => p = .dt) s t) ∧
    (∃ t, exec (.ldStVx x) s = .next t ∧ t.ST = s.V[x] ∧ FrameExcept (fun p => p = .st) s t)

/-- Nothing reads the sound timer (R27, R276): a cycle from a state with another ST goes the same way, ST apart, and stops
on the same fault. -/
def Obligations.SoundTimerIsNeverRead : Prop :=
  ∀ (s : State) (b : Byte),
    (∀ t, step s = .next t → ∃ u, step { s with ST := b } = .next u ∧ FrameExcept (fun p => p = .st) t u) ∧
    (∀ f, step s = .fault f → step { s with ST := b } = .fault f)

/-- What the host does between cycles, in every state and every phase of the boot protocol, which stays as it is (DEDUCED,
log 15). TICK (R309): each timer goes down by one, floored at 0, and nothing else changes. KEYSET (R311): the one key flag takes the bit,
and nothing else changes; the core itself never writes a key flag. DISPREAD (R254): the host gets the display, and nothing
changes. -/
def Obligations.HostInputsWriteOnlyTheirPart : Prop :=
  (∀ (s : State) (phase : Phase), ∃ t, Session.perform ⟨s, phase⟩ .tick = .next (.done, ⟨t, phase⟩) ∧
    t.DT.toNat = s.DT.toNat - 1 ∧ t.ST.toNat = s.ST.toNat - 1 ∧ FrameExcept (fun p => p = .dt ∨ p = .st) s t) ∧
  (∀ (s : State) (phase : Phase) (k : KeyIx) (b : Bool), ∃ t,
    Session.perform ⟨s, phase⟩ (.keySet k b) = .next (.done, ⟨t, phase⟩) ∧ t.key[k] = b ∧
    FrameExcept (fun p => p = .key k) s t) ∧
  (∀ s t : State, step s = .next t → t.key = s.key) ∧
  (∀ (s : State) (phase : Phase), Session.perform ⟨s, phase⟩ .dispRead = .next (.display s.disp, ⟨s, phase⟩))

/-- After k ticks each timer is k lower, never below 0, and every other part is as before (R310, R361). -/
def Obligations.TicksSaturateAtZero : Prop :=
  ∀ (s : State) (k : Nat), ∃ t, Session.performAll ⟨s, .running⟩ (List.replicate k .tick) =
      .next (List.replicate k .done, ⟨t, .running⟩) ∧
    t.DT.toNat = s.DT.toNat - k ∧ t.ST.toNat = s.ST.toNat - k ∧ FrameExcept (fun p => p = .dt ∨ p = .st) s t

/-! ### Whole-machine rules -/

/-- Only the six flag instructions write VF as a flag (R21); every other register changes only as a named destination
(R20). -/
def Obligations.OnlyDestinationsAndFlagsChange : Prop :=
  ∀ (i : Instr) (s t : State) (r : RegIx), exec i s = .next t → writesReg r i = false →
    (r = 15 → writesFlag i = false) → t.V[r] = s.V[r]

/-- Which instructions write each part of the state that is no general register, pc counted after the fetch (R22, R23, R24,
R25, R26, R27, R28, R29, R30, R31, R60). -/
def Obligations.EachRegisterHasItsWriters : Prop :=
  ∀ (i : Instr) (s t : State), exec i s = .next t →
    (t.I ≠ s.I → (∃ n, i = .ldI n) ∨ (∃ x, i = .addIVx x) ∨ (∃ x, i = .ldFVx x)) ∧
    (t.pc ≠ s.pc → i = .ret ∨ (∃ n, i = .jp n ∨ i = .call n ∨ i = .jpV0 n) ∨ (∃ x kk, i = .seKk x kk ∨ i = .sneKk x kk) ∨
      (∃ x y, i = .seVy x y ∨ i = .sneVy x y) ∨ (∃ x, i = .skp x ∨ i = .sknp x ∨ i = .ldVxK x)) ∧
    (t.SP ≠ s.SP → i = .ret ∨ ∃ n, i = .call n) ∧
    (t.stack ≠ s.stack → ∃ n, i = .call n) ∧
    (t.DT ≠ s.DT → ∃ x, i = .ldDtVx x) ∧
    (t.ST ≠ s.ST → ∃ x, i = .ldStVx x) ∧
    (t.rng ≠ s.rng → ∃ x kk, i = .rnd x kk) ∧
    (t.disp ≠ s.disp → i = .cls ∨ ∃ x y n, i = .drw x y n) ∧
    t.key = s.key ∧
    (t.wait ≠ s.wait → ∃ x, i = .ldVxK x) ∧
    (t.mem ≠ s.mem → (∃ x, i = .ldBVx x) ∨ (∃ x, i = .ldMemVx x))

/-- The call stack's entry 0 and every entry but the one pushed keep their values in every cycle (R25), and SP moves by at
most one (R24). -/
def Obligations.CycleMovesStackByOne : Prop :=
  ∀ s t : State, s.SP.toNat ≤ 15 → step s = .next t →
    t.stack[(0 : Fin 16)] = s.stack[(0 : Fin 16)] ∧
    (∀ j : Fin 16, j.val ≠ s.SP.toNat + 1 → t.stack[j] = s.stack[j]) ∧
    (t.SP.toNat = s.SP.toNat ∨ t.SP.toNat = s.SP.toNat + 1 ∨ t.SP.toNat + 1 = s.SP.toNat)

/-- Every cycle keeps the invariant: memory canonical and inside [0x000,0xFFF] (R60), pc at most 0x10FE and return addresses
at most 0x1000 (R33), SP at most 15 (R24), stack[0] as RESET left it (R25), pc on a fetched instruction while waiting (R31). -/
def Obligations.StepKeepsInvariant : Prop :=
  ∀ s t : State, s.Inv → step s = .next t → t.Inv

/-- RESET, with any seed, gives a state that meets the invariant (R350). -/
def Obligations.ResetMeetsInvariant : Prop :=
  State.reset.Inv ∧ ∀ seed : RngWord, (State.resetWith seed).Inv

/-- Every host operation that is not refused keeps the invariant, in every phase (R35). -/
def Obligations.HostOperationsKeepInvariant : Prop :=
  ∀ (s t : Session) (op : HostOp) (reply : HostReply), s.core.Inv → s.perform op = .next (reply, t) → t.core.Inv

/-- From a state that meets the invariant, any interleaving of host operations ends in one that does, or is refused as a
LOAD outside the protocol; it never stops otherwise (R355, R356, R361). -/
def Obligations.EveryInterleavingKeepsInvariant : Prop :=
  ∀ (s : Session) (ops : List HostOp), s.core.Inv →
    (∃ replies t, s.performAll ops = .next (replies, t) ∧ t.core.Inv) ∨
    s.performAll ops = .refused .loadOutsideProtocol

/-! ### Reset, load, end of a run -/

/-- RESET(SEED) (R350), for every SEED and FONT_BASE: the glyph table at FONT_BASE and 0 elsewhere, pc = 0x200 (decision D1,
log 5), rng = SEED, SP = DT = ST = 0, and the fields decision D6 sets to 0 or none (log 6). Glyph bytes: D4 (log 4). -/
def Obligations.ResetValues : Prop :=
  State.reset = State.resetWith Config.seedParam ∧
  ∀ seed : RngWord,
    let s := State.resetWith seed
    (∀ k, k < 80 → s.mem.read (fontBase + k) = fontData.getD k 0) ∧
    (∀ a, a < 0x1000 → (a < fontBase ∨ fontBase + 80 ≤ a) → s.mem.read a = 0) ∧ fontBase + 80 ≤ 0x200 ∧
    s.pc = 0x200 ∧ s.rng = seed ∧ s.SP = 0 ∧ s.DT = 0 ∧ s.ST = 0 ∧ s.I = 0 ∧ s.wait = none ∧
    (∀ r : RegIx, s.V[r] = 0) ∧ (∀ j : Fin 16, s.stack[j] = 0) ∧ (∀ k : KeyIx, s.key[k] = false) ∧
    (∀ r c, s.disp.cell r c = false)

/-- LOAD (R353, R354): a program of at most 3584 bytes goes to 0x200 on and no other byte and no register changes; a longer
one gives ProgramTooLarge and changes nothing (D22, log 15). Memory is in its canonical form, as after RESET. -/
def Obligations.LoadCopiesProgram : Prop :=
  ∀ (s : State) (bytes : List Byte), s.mem.wf = true →
    (bytes.length ≤ 3584 → ∃ t, Session.perform ⟨s, .fresh⟩ (.load bytes) = .next (.loadOk, ⟨t, .loaded⟩) ∧
      (∀ k, k < bytes.length → t.mem.read (0x200 + k) = bytes.getD k 0) ∧
      FrameExcept (bytesFrom 0x200 bytes.length) s t ∧ t.mem.wf = true) ∧
    (bytes.length > 3584 → Session.perform ⟨s, .fresh⟩ (.load bytes) = .next (.programTooLarge, ⟨s, .fresh⟩))

/-- At most one successful LOAD, after RESET and before the first CYCLE (R355: decision D22 of the spec, log 15). After a
successful LOAD or a CYCLE, whatever operations but RESET the host completes, the next LOAD is refused; that one too long is
refused as well, and not answered ProgramTooLarge, is the model's DESIGN CHOICE (log 15). RESET opens the protocol again, and
TICK, KEYSET and DISPREAD leave it open: DEDUCED (log 15). -/
def Obligations.LoadOutsideProtocolIsRefused : Prop :=
  (∀ (s t u : Session) (bytes bytes' : List Byte) (reply : HostReply) (ops : List HostOp) (replies : List HostReply),
    s.perform (.load bytes) = .next (.loadOk, t) ∨ s.perform .cycle = .next (reply, t) →
    (∀ seed, HostOp.reset seed ∉ ops) → t.performAll ops = .next (replies, u) →
    u.perform (.load bytes') = .refused .loadOutsideProtocol) ∧
  (∀ (s t : Session) (seed : RngWord) (reply : HostReply) (ops : List HostOp) (bytes : List Byte),
    s.perform (.reset seed) = .next (reply, t) → bytes.length ≤ 3584 →
    (∀ op, op ∈ ops → op = .tick ∨ op = .dispRead ∨ ∃ k b, op = .keySet k b) →
    ∃ replies u v, t.performAll ops = .next (replies, u) ∧ u.perform (.load bytes) = .next (.loadOk, v))

/-- The parked state (R132, D25): CYCLE on a jump to itself with no wait returns Success and changes nothing, however often
it is run. -/
def Obligations.ParkedStateStays : Prop :=
  ∀ (s : State) (n : Nat), s.wait = none → s.pc.toNat ≤ 0xFFE → decode (fetchWord s) = .instr (.jp s.pc) →
    cycle s = .next (.success, s) ∧ Host.Core.run core n s = .next s

/-- A core that was reset and not loaded fetches the word 0 at 0x200: CYCLE returns UnsupportedOpcode for it, and pc moves on
by 2 (R357; D1, D8). -/
def Obligations.UnloadedCoreReportsZeroWord : Prop :=
  ∀ seed : RngWord,
    step (State.resetWith seed) = .next { State.resetWith seed with pc := 0x202 } ∧
    cycle (State.resetWith seed) =
      .next (.unsupportedOpcode 0x0000 0x200, { State.resetWith seed with pc := 0x202 })
end

