-- ==== Sys2Proof/Laws/Decode.lean ====
section
/-! SUPPORT. The fields of the three word layouts, the masks of the opcode table as numbers, and the two bytes of a word. -/

namespace Sys2Proof

/-! ### Fields of the layouts (R91) -/

theorem wordNnn_toNat {m : Nat} {nnn : Word} (hm : m < 16) : (wordNnn m nnn).toNat = m * 0x1000 + nnn.toNat % 0x1000 := by
  simp only [wordNnn, BitVec.toNat_ofNat]; omega

theorem wordXKk_toNat {m : Nat} {x : RegIx} {kk : Byte} (hm : m < 16) :
    (wordXKk m x kk).toNat = m * 0x1000 + x.val * 0x100 + kk.toNat := by
  have := x.isLt; have := kk.isLt
  simp only [wordXKk, BitVec.toNat_ofNat]; omega

theorem wordXYN_toNat {m : Nat} {x y : RegIx} {n : Nat} (hm : m < 16) :
    (wordXYN m x y n).toNat = m * 0x1000 + x.val * 0x100 + y.val * 0x10 + n % 0x10 := by
  have := x.isLt; have := y.isLt
  simp only [wordXYN, BitVec.toNat_ofNat]; omega

theorem fieldX_val (w : Word) : (fieldX w).val = w.toNat / 0x100 % 0x10 := by simp [fieldX]

theorem fieldY_val (w : Word) : (fieldY w).val = w.toNat / 0x10 % 0x10 := by simp [fieldY]

theorem fieldKk_toNat (w : Word) : (fieldKk w).toNat = w.toNat % 0x100 := by simp [fieldKk]

theorem fieldNnn_toNat (w : Word) : (fieldNnn w).toNat = w.toNat % 0x1000 := by
  simp only [fieldNnn, BitVec.toNat_ofNat]; omega

/-- The fields of a word written as `m nnn`. -/
theorem wordNnn_fields {m : Nat} {nnn : Word} (hm : m < 16) (h : nnn.toNat < 0x1000) :
    fieldM (wordNnn m nnn) = m ∧ fieldNnn (wordNnn m nnn) = nnn := by
  refine ⟨?_, BitVec.eq_of_toNat_eq ?_⟩
  · rw [fieldM, wordNnn_toNat hm]; omega
  · rw [fieldNnn_toNat, wordNnn_toNat hm]; omega

/-- The fields of a word written as `m x kk`. -/
theorem wordXKk_fields {m : Nat} (hm : m < 16) (x : RegIx) (kk : Byte) :
    fieldM (wordXKk m x kk) = m ∧ fieldX (wordXKk m x kk) = x ∧ fieldKk (wordXKk m x kk) = kk ∧
    (fieldY (wordXKk m x kk)).val = kk.toNat / 0x10 ∧ fieldN (wordXKk m x kk) = kk.toNat % 0x10 := by
  have := x.isLt; have := kk.isLt
  refine ⟨?_, Fin.ext ?_, BitVec.eq_of_toNat_eq ?_, ?_, ?_⟩
  · rw [fieldM, wordXKk_toNat hm]; omega
  · rw [fieldX_val, wordXKk_toNat hm]; omega
  · rw [fieldKk_toNat, wordXKk_toNat hm]; omega
  · rw [fieldY_val, wordXKk_toNat hm]; omega
  · rw [fieldN, wordXKk_toNat hm]; omega

/-- The fields of a word written as `m x y n`. -/
theorem wordXYN_fields {m n : Nat} (hm : m < 16) (x y : RegIx) (hn : n < 16) :
    fieldM (wordXYN m x y n) = m ∧ fieldX (wordXYN m x y n) = x ∧ fieldY (wordXYN m x y n) = y ∧
    fieldN (wordXYN m x y n) = n := by
  have := x.isLt; have := y.isLt
  refine ⟨?_, Fin.ext ?_, Fin.ext ?_, ?_⟩
  · rw [fieldM, wordXYN_toNat hm]; omega
  · rw [fieldX_val, wordXYN_toNat hm]; omega
  · rw [fieldY_val, wordXYN_toNat hm]; omega
  · rw [fieldN, wordXYN_toNat hm]; omega

/-! ### One decoding lemma per row of R94 -/

theorem decode_jp {w : Word} (hm : fieldM w = 0x1) :
    decode w = .instr (.jp (fieldNnn w)) := by delta decode; rw [hm]; rfl

theorem decode_call {w : Word} (hm : fieldM w = 0x2) :
    decode w = .instr (.call (fieldNnn w)) := by delta decode; rw [hm]; rfl

theorem decode_seKk {w : Word} (hm : fieldM w = 0x3) :
    decode w = .instr (.seKk (fieldX w) (fieldKk w)) := by delta decode; rw [hm]; rfl

theorem decode_sneKk {w : Word} (hm : fieldM w = 0x4) :
    decode w = .instr (.sneKk (fieldX w) (fieldKk w)) := by delta decode; rw [hm]; rfl

theorem decode_seVy {w : Word} (hm : fieldM w = 0x5) (hn : fieldN w = 0x0) :
    decode w = .instr (.seVy (fieldX w) (fieldY w)) := by delta decode; rw [hm, hn]; rfl

theorem decode_ldKk {w : Word} (hm : fieldM w = 0x6) :
    decode w = .instr (.ldKk (fieldX w) (fieldKk w)) := by delta decode; rw [hm]; rfl

theorem decode_addKk {w : Word} (hm : fieldM w = 0x7) :
    decode w = .instr (.addKk (fieldX w) (fieldKk w)) := by delta decode; rw [hm]; rfl

theorem decode_ldVy {w : Word} (hm : fieldM w = 0x8) (hn : fieldN w = 0x0) :
    decode w = .instr (.ldVy (fieldX w) (fieldY w)) := by delta decode; rw [hm, hn]; rfl

theorem decode_orVy {w : Word} (hm : fieldM w = 0x8) (hn : fieldN w = 0x1) :
    decode w = .instr (.orVy (fieldX w) (fieldY w)) := by delta decode; rw [hm, hn]; rfl

theorem decode_andVy {w : Word} (hm : fieldM w = 0x8) (hn : fieldN w = 0x2) :
    decode w = .instr (.andVy (fieldX w) (fieldY w)) := by delta decode; rw [hm, hn]; rfl

theorem decode_xorVy {w : Word} (hm : fieldM w = 0x8) (hn : fieldN w = 0x3) :
    decode w = .instr (.xorVy (fieldX w) (fieldY w)) := by delta decode; rw [hm, hn]; rfl

theorem decode_addVy {w : Word} (hm : fieldM w = 0x8) (hn : fieldN w = 0x4) :
    decode w = .instr (.addVy (fieldX w) (fieldY w)) := by delta decode; rw [hm, hn]; rfl

theorem decode_subVy {w : Word} (hm : fieldM w = 0x8) (hn : fieldN w = 0x5) :
    decode w = .instr (.subVy (fieldX w) (fieldY w)) := by delta decode; rw [hm, hn]; rfl

theorem decode_shr {w : Word} (hm : fieldM w = 0x8) (hn : fieldN w = 0x6) :
    decode w = .instr (.shr (fieldX w)) := by delta decode; rw [hm, hn]; rfl

theorem decode_subnVy {w : Word} (hm : fieldM w = 0x8) (hn : fieldN w = 0x7) :
    decode w = .instr (.subnVy (fieldX w) (fieldY w)) := by delta decode; rw [hm, hn]; rfl

theorem decode_shl {w : Word} (hm : fieldM w = 0x8) (hn : fieldN w = 0xE) :
    decode w = .instr (.shl (fieldX w)) := by delta decode; rw [hm, hn]; rfl

theorem decode_sneVy {w : Word} (hm : fieldM w = 0x9) (hn : fieldN w = 0x0) :
    decode w = .instr (.sneVy (fieldX w) (fieldY w)) := by delta decode; rw [hm, hn]; rfl

theorem decode_ldI {w : Word} (hm : fieldM w = 0xA) :
    decode w = .instr (.ldI (fieldNnn w)) := by delta decode; rw [hm]; rfl

theorem decode_jpV0 {w : Word} (hm : fieldM w = 0xB) :
    decode w = .instr (.jpV0 (fieldNnn w)) := by delta decode; rw [hm]; rfl

theorem decode_rnd {w : Word} (hm : fieldM w = 0xC) :
    decode w = .instr (.rnd (fieldX w) (fieldKk w)) := by delta decode; rw [hm]; rfl

theorem decode_drw {w : Word} (hm : fieldM w = 0xD) :
    decode w = .instr (.drw (fieldX w) (fieldY w) (fieldN w)) := by delta decode; rw [hm]; rfl

theorem decode_skp {w : Word} (hm : fieldM w = 0xE) (hy : (fieldY w).val = 0x9) (hn : fieldN w = 0xE) :
    decode w = .instr (.skp (fieldX w)) := by delta decode; rw [hm, hy, hn]; rfl

theorem decode_sknp {w : Word} (hm : fieldM w = 0xE) (hy : (fieldY w).val = 0xA) (hn : fieldN w = 0x1) :
    decode w = .instr (.sknp (fieldX w)) := by delta decode; rw [hm, hy, hn]; rfl

theorem decode_ldVxDt {w : Word} (hm : fieldM w = 0xF) (hy : (fieldY w).val = 0x0) (hn : fieldN w = 0x7) :
    decode w = .instr (.ldVxDt (fieldX w)) := by delta decode; rw [hm, hy, hn]; rfl

theorem decode_ldVxK {w : Word} (hm : fieldM w = 0xF) (hy : (fieldY w).val = 0x0) (hn : fieldN w = 0xA) :
    decode w = .instr (.ldVxK (fieldX w)) := by delta decode; rw [hm, hy, hn]; rfl

theorem decode_ldDtVx {w : Word} (hm : fieldM w = 0xF) (hy : (fieldY w).val = 0x1) (hn : fieldN w = 0x5) :
    decode w = .instr (.ldDtVx (fieldX w)) := by delta decode; rw [hm, hy, hn]; rfl

theorem decode_ldStVx {w : Word} (hm : fieldM w = 0xF) (hy : (fieldY w).val = 0x1) (hn : fieldN w = 0x8) :
    decode w = .instr (.ldStVx (fieldX w)) := by delta decode; rw [hm, hy, hn]; rfl

theorem decode_addIVx {w : Word} (hm : fieldM w = 0xF) (hy : (fieldY w).val = 0x1) (hn : fieldN w = 0xE) :
    decode w = .instr (.addIVx (fieldX w)) := by delta decode; rw [hm, hy, hn]; rfl

theorem decode_ldFVx {w : Word} (hm : fieldM w = 0xF) (hy : (fieldY w).val = 0x2) (hn : fieldN w = 0x9) :
    decode w = .instr (.ldFVx (fieldX w)) := by delta decode; rw [hm, hy, hn]; rfl

theorem decode_ldBVx {w : Word} (hm : fieldM w = 0xF) (hy : (fieldY w).val = 0x3) (hn : fieldN w = 0x3) :
    decode w = .instr (.ldBVx (fieldX w)) := by delta decode; rw [hm, hy, hn]; rfl

theorem decode_ldMemVx {w : Word} (hm : fieldM w = 0xF) (hy : (fieldY w).val = 0x5) (hn : fieldN w = 0x5) :
    decode w = .instr (.ldMemVx (fieldX w)) := by delta decode; rw [hm, hy, hn]; rfl

theorem decode_ldVxMem {w : Word} (hm : fieldM w = 0xF) (hy : (fieldY w).val = 0x6) (hn : fieldN w = 0x5) :
    decode w = .instr (.ldVxMem (fieldX w)) := by delta decode; rw [hm, hy, hn]; rfl

/-! ### The masks of R94 -/

theorem and_F000_toNat (w : Word) : (w &&& 0xF000).toNat = w.toNat / 0x1000 * 0x1000 := by
  have h : w &&& 0xF000#16 = (w >>> 12) <<< 12 := by
    apply BitVec.eq_of_getLsbD_eq
    intro i hi
    interval_cases i <;> simp
  have := w.isLt
  show (w &&& 0xF000#16).toNat = _
  rw [h]
  simp only [BitVec.toNat_shiftLeft, BitVec.toNat_ushiftRight, Nat.shiftLeft_eq, Nat.shiftRight_eq_div_pow]
  omega

theorem and_000F_toNat (w : Word) : (w &&& 0x000F#16).toNat = w.toNat % 0x10 :=
  Nat.and_two_pow_sub_one_eq_mod w.toNat 4

theorem and_00FF_toNat (w : Word) : (w &&& 0x00FF#16).toNat = w.toNat % 0x100 :=
  Nat.and_two_pow_sub_one_eq_mod w.toNat 8

theorem and_or_toNat (w a b : Word) (h : a &&& b = 0) :
    (w &&& (a ||| b)).toNat = (w &&& a).toNat + (w &&& b).toNat := by
  have h2 : (w &&& a) &&& (w &&& b) = 0 := by
    rw [show (w &&& a) &&& (w &&& b) = w &&& (a &&& b) by ac_nf, h]; simp
  rw [BitVec.and_or_distrib_left, ← BitVec.add_eq_or_of_and_eq_zero _ _ h2, BitVec.toNat_add_of_and_eq_zero h2]

theorem and_F00F_toNat (w : Word) : (w &&& 0xF00F).toNat = w.toNat / 0x1000 * 0x1000 + w.toNat % 0x10 := by
  rw [show (0xF00F : Word) = 0xF000#16 ||| 0x000F#16 from rfl, and_or_toNat _ _ _ rfl, and_000F_toNat]
  exact congrArg (· + _) (and_F000_toNat w)

theorem and_F0FF_toNat (w : Word) : (w &&& 0xF0FF).toNat = w.toNat / 0x1000 * 0x1000 + w.toNat % 0x100 := by
  rw [show (0xF0FF : Word) = 0xF000#16 ||| 0x00FF#16 from rfl, and_or_toNat _ _ _ rfl, and_00FF_toNat]
  exact congrArg (· + _) (and_F000_toNat w)

/-! ### The two bytes of a word (R66, R90) -/

theorem concat8_toNat (hi lo : Byte) : (concat8 hi lo).toNat = hi.toNat * 0x100 + lo.toNat := by
  have := hi.isLt; have := lo.isLt
  simp only [concat8, BitVec.toNat_ofNat]; omega

theorem concat8_bytes (w : Word) : concat8 (highByte w) (lowByte w) = w := by
  apply BitVec.eq_of_toNat_eq
  have := w.isLt
  rw [concat8_toNat]
  simp only [highByte, lowByte, BitVec.toNat_ofNat]; omega

/-! ### What a decoded instruction says of its word -/

/-- A decoded instruction is one a word can hold: its address is below 0x1000, its row count below 16 (R92). -/
theorem decode_wellFormed {w : Word} {i : Instr} (h : decode w = .instr i) : i.WellFormed := by
  have hn : (fieldNnn w).toNat < 0x1000 := by rw [fieldNnn_toNat]; omega
  have hk : fieldN w < 16 := by simp only [fieldN]; omega
  unfold decode at h
  split at h <;> cases h <;> simp [Instr.WellFormed, Instr.wellFormed, addrFits, rowCountFits, hn, hk]

/-- An unsupported word is reported as itself (R95). -/
theorem decode_unsupported_self {w u : Word} (h : decode w = .unsupported u) : u = w := by
  unfold decode at h
  split at h <;> cases h
  rfl

end Sys2Proof
end

