-- ==== Sys2Proof/Laws/State.lean ====
section
/-! SUPPORT. What each update of one field does to each field, and the shared register operations. -/

namespace Sys2Proof.Machine

variable (s : State)

/-! ### setV -/

@[simp] theorem setV_mem (x : RegIx) (b : Byte) : (s.setV x b).mem = s.mem := rfl
@[simp] theorem setV_V (x : RegIx) (b : Byte) : (s.setV x b).V = s.V.set x b := rfl
@[simp] theorem setV_I (x : RegIx) (b : Byte) : (s.setV x b).I = s.I := rfl
@[simp] theorem setV_pc (x : RegIx) (b : Byte) : (s.setV x b).pc = s.pc := rfl
@[simp] theorem setV_SP (x : RegIx) (b : Byte) : (s.setV x b).SP = s.SP := rfl
@[simp] theorem setV_stack (x : RegIx) (b : Byte) : (s.setV x b).stack = s.stack := rfl
@[simp] theorem setV_DT (x : RegIx) (b : Byte) : (s.setV x b).DT = s.DT := rfl
@[simp] theorem setV_ST (x : RegIx) (b : Byte) : (s.setV x b).ST = s.ST := rfl
@[simp] theorem setV_rng (x : RegIx) (b : Byte) : (s.setV x b).rng = s.rng := rfl
@[simp] theorem setV_disp (x : RegIx) (b : Byte) : (s.setV x b).disp = s.disp := rfl
@[simp] theorem setV_key (x : RegIx) (b : Byte) : (s.setV x b).key = s.key := rfl
@[simp] theorem setV_wait (x : RegIx) (b : Byte) : (s.setV x b).wait = s.wait := rfl

/-! ### setVF -/

@[simp] theorem setVF_mem (b : Byte) : (s.setVF b).mem = s.mem := rfl
@[simp] theorem setVF_V (b : Byte) : (s.setVF b).V = s.V.set vf b := rfl
@[simp] theorem setVF_I (b : Byte) : (s.setVF b).I = s.I := rfl
@[simp] theorem setVF_pc (b : Byte) : (s.setVF b).pc = s.pc := rfl
@[simp] theorem setVF_SP (b : Byte) : (s.setVF b).SP = s.SP := rfl
@[simp] theorem setVF_stack (b : Byte) : (s.setVF b).stack = s.stack := rfl
@[simp] theorem setVF_DT (b : Byte) : (s.setVF b).DT = s.DT := rfl
@[simp] theorem setVF_ST (b : Byte) : (s.setVF b).ST = s.ST := rfl
@[simp] theorem setVF_rng (b : Byte) : (s.setVF b).rng = s.rng := rfl
@[simp] theorem setVF_disp (b : Byte) : (s.setVF b).disp = s.disp := rfl
@[simp] theorem setVF_key (b : Byte) : (s.setVF b).key = s.key := rfl
@[simp] theorem setVF_wait (b : Byte) : (s.setVF b).wait = s.wait := rfl

/-! ### setI -/

@[simp] theorem setI_mem (w : Word) : (s.setI w).mem = s.mem := rfl
@[simp] theorem setI_V (w : Word) : (s.setI w).V = s.V := rfl
@[simp] theorem setI_I (w : Word) : (s.setI w).I = w := rfl
@[simp] theorem setI_pc (w : Word) : (s.setI w).pc = s.pc := rfl
@[simp] theorem setI_SP (w : Word) : (s.setI w).SP = s.SP := rfl
@[simp] theorem setI_stack (w : Word) : (s.setI w).stack = s.stack := rfl
@[simp] theorem setI_DT (w : Word) : (s.setI w).DT = s.DT := rfl
@[simp] theorem setI_ST (w : Word) : (s.setI w).ST = s.ST := rfl
@[simp] theorem setI_rng (w : Word) : (s.setI w).rng = s.rng := rfl
@[simp] theorem setI_disp (w : Word) : (s.setI w).disp = s.disp := rfl
@[simp] theorem setI_key (w : Word) : (s.setI w).key = s.key := rfl
@[simp] theorem setI_wait (w : Word) : (s.setI w).wait = s.wait := rfl

/-! ### setPc -/

@[simp] theorem setPc_mem (w : Word) : (s.setPc w).mem = s.mem := rfl
@[simp] theorem setPc_V (w : Word) : (s.setPc w).V = s.V := rfl
@[simp] theorem setPc_I (w : Word) : (s.setPc w).I = s.I := rfl
@[simp] theorem setPc_pc (w : Word) : (s.setPc w).pc = w := rfl
@[simp] theorem setPc_SP (w : Word) : (s.setPc w).SP = s.SP := rfl
@[simp] theorem setPc_stack (w : Word) : (s.setPc w).stack = s.stack := rfl
@[simp] theorem setPc_DT (w : Word) : (s.setPc w).DT = s.DT := rfl
@[simp] theorem setPc_ST (w : Word) : (s.setPc w).ST = s.ST := rfl
@[simp] theorem setPc_rng (w : Word) : (s.setPc w).rng = s.rng := rfl
@[simp] theorem setPc_disp (w : Word) : (s.setPc w).disp = s.disp := rfl
@[simp] theorem setPc_key (w : Word) : (s.setPc w).key = s.key := rfl
@[simp] theorem setPc_wait (w : Word) : (s.setPc w).wait = s.wait := rfl

/-! ### setSP -/

@[simp] theorem setSP_mem (b : Byte) : (s.setSP b).mem = s.mem := rfl
@[simp] theorem setSP_V (b : Byte) : (s.setSP b).V = s.V := rfl
@[simp] theorem setSP_I (b : Byte) : (s.setSP b).I = s.I := rfl
@[simp] theorem setSP_pc (b : Byte) : (s.setSP b).pc = s.pc := rfl
@[simp] theorem setSP_SP (b : Byte) : (s.setSP b).SP = b := rfl
@[simp] theorem setSP_stack (b : Byte) : (s.setSP b).stack = s.stack := rfl
@[simp] theorem setSP_DT (b : Byte) : (s.setSP b).DT = s.DT := rfl
@[simp] theorem setSP_ST (b : Byte) : (s.setSP b).ST = s.ST := rfl
@[simp] theorem setSP_rng (b : Byte) : (s.setSP b).rng = s.rng := rfl
@[simp] theorem setSP_disp (b : Byte) : (s.setSP b).disp = s.disp := rfl
@[simp] theorem setSP_key (b : Byte) : (s.setSP b).key = s.key := rfl
@[simp] theorem setSP_wait (b : Byte) : (s.setSP b).wait = s.wait := rfl

/-! ### setStack -/

@[simp] theorem setStack_mem (j : Fin 16) (w : Word) : (s.setStack j w).mem = s.mem := rfl
@[simp] theorem setStack_V (j : Fin 16) (w : Word) : (s.setStack j w).V = s.V := rfl
@[simp] theorem setStack_I (j : Fin 16) (w : Word) : (s.setStack j w).I = s.I := rfl
@[simp] theorem setStack_pc (j : Fin 16) (w : Word) : (s.setStack j w).pc = s.pc := rfl
@[simp] theorem setStack_SP (j : Fin 16) (w : Word) : (s.setStack j w).SP = s.SP := rfl
@[simp] theorem setStack_stack (j : Fin 16) (w : Word) : (s.setStack j w).stack = s.stack.set j w := rfl
@[simp] theorem setStack_DT (j : Fin 16) (w : Word) : (s.setStack j w).DT = s.DT := rfl
@[simp] theorem setStack_ST (j : Fin 16) (w : Word) : (s.setStack j w).ST = s.ST := rfl
@[simp] theorem setStack_rng (j : Fin 16) (w : Word) : (s.setStack j w).rng = s.rng := rfl
@[simp] theorem setStack_disp (j : Fin 16) (w : Word) : (s.setStack j w).disp = s.disp := rfl
@[simp] theorem setStack_key (j : Fin 16) (w : Word) : (s.setStack j w).key = s.key := rfl
@[simp] theorem setStack_wait (j : Fin 16) (w : Word) : (s.setStack j w).wait = s.wait := rfl

/-! ### setDT -/

@[simp] theorem setDT_mem (b : Byte) : (s.setDT b).mem = s.mem := rfl
@[simp] theorem setDT_V (b : Byte) : (s.setDT b).V = s.V := rfl
@[simp] theorem setDT_I (b : Byte) : (s.setDT b).I = s.I := rfl
@[simp] theorem setDT_pc (b : Byte) : (s.setDT b).pc = s.pc := rfl
@[simp] theorem setDT_SP (b : Byte) : (s.setDT b).SP = s.SP := rfl
@[simp] theorem setDT_stack (b : Byte) : (s.setDT b).stack = s.stack := rfl
@[simp] theorem setDT_DT (b : Byte) : (s.setDT b).DT = b := rfl
@[simp] theorem setDT_ST (b : Byte) : (s.setDT b).ST = s.ST := rfl
@[simp] theorem setDT_rng (b : Byte) : (s.setDT b).rng = s.rng := rfl
@[simp] theorem setDT_disp (b : Byte) : (s.setDT b).disp = s.disp := rfl
@[simp] theorem setDT_key (b : Byte) : (s.setDT b).key = s.key := rfl
@[simp] theorem setDT_wait (b : Byte) : (s.setDT b).wait = s.wait := rfl

/-! ### setST -/

@[simp] theorem setST_mem (b : Byte) : (s.setST b).mem = s.mem := rfl
@[simp] theorem setST_V (b : Byte) : (s.setST b).V = s.V := rfl
@[simp] theorem setST_I (b : Byte) : (s.setST b).I = s.I := rfl
@[simp] theorem setST_pc (b : Byte) : (s.setST b).pc = s.pc := rfl
@[simp] theorem setST_SP (b : Byte) : (s.setST b).SP = s.SP := rfl
@[simp] theorem setST_stack (b : Byte) : (s.setST b).stack = s.stack := rfl
@[simp] theorem setST_DT (b : Byte) : (s.setST b).DT = s.DT := rfl
@[simp] theorem setST_ST (b : Byte) : (s.setST b).ST = b := rfl
@[simp] theorem setST_rng (b : Byte) : (s.setST b).rng = s.rng := rfl
@[simp] theorem setST_disp (b : Byte) : (s.setST b).disp = s.disp := rfl
@[simp] theorem setST_key (b : Byte) : (s.setST b).key = s.key := rfl
@[simp] theorem setST_wait (b : Byte) : (s.setST b).wait = s.wait := rfl

/-! ### setRng -/

@[simp] theorem setRng_mem (r : RngWord) : (s.setRng r).mem = s.mem := rfl
@[simp] theorem setRng_V (r : RngWord) : (s.setRng r).V = s.V := rfl
@[simp] theorem setRng_I (r : RngWord) : (s.setRng r).I = s.I := rfl
@[simp] theorem setRng_pc (r : RngWord) : (s.setRng r).pc = s.pc := rfl
@[simp] theorem setRng_SP (r : RngWord) : (s.setRng r).SP = s.SP := rfl
@[simp] theorem setRng_stack (r : RngWord) : (s.setRng r).stack = s.stack := rfl
@[simp] theorem setRng_DT (r : RngWord) : (s.setRng r).DT = s.DT := rfl
@[simp] theorem setRng_ST (r : RngWord) : (s.setRng r).ST = s.ST := rfl
@[simp] theorem setRng_rng (r : RngWord) : (s.setRng r).rng = r := rfl
@[simp] theorem setRng_disp (r : RngWord) : (s.setRng r).disp = s.disp := rfl
@[simp] theorem setRng_key (r : RngWord) : (s.setRng r).key = s.key := rfl
@[simp] theorem setRng_wait (r : RngWord) : (s.setRng r).wait = s.wait := rfl

/-! ### setDisp -/

@[simp] theorem setDisp_mem (d : Display) : (s.setDisp d).mem = s.mem := rfl
@[simp] theorem setDisp_V (d : Display) : (s.setDisp d).V = s.V := rfl
@[simp] theorem setDisp_I (d : Display) : (s.setDisp d).I = s.I := rfl
@[simp] theorem setDisp_pc (d : Display) : (s.setDisp d).pc = s.pc := rfl
@[simp] theorem setDisp_SP (d : Display) : (s.setDisp d).SP = s.SP := rfl
@[simp] theorem setDisp_stack (d : Display) : (s.setDisp d).stack = s.stack := rfl
@[simp] theorem setDisp_DT (d : Display) : (s.setDisp d).DT = s.DT := rfl
@[simp] theorem setDisp_ST (d : Display) : (s.setDisp d).ST = s.ST := rfl
@[simp] theorem setDisp_rng (d : Display) : (s.setDisp d).rng = s.rng := rfl
@[simp] theorem setDisp_disp (d : Display) : (s.setDisp d).disp = d := rfl
@[simp] theorem setDisp_key (d : Display) : (s.setDisp d).key = s.key := rfl
@[simp] theorem setDisp_wait (d : Display) : (s.setDisp d).wait = s.wait := rfl

/-! ### setKey -/

@[simp] theorem setKey_mem (k : KeyIx) (b : Bool) : (s.setKey k b).mem = s.mem := rfl
@[simp] theorem setKey_V (k : KeyIx) (b : Bool) : (s.setKey k b).V = s.V := rfl
@[simp] theorem setKey_I (k : KeyIx) (b : Bool) : (s.setKey k b).I = s.I := rfl
@[simp] theorem setKey_pc (k : KeyIx) (b : Bool) : (s.setKey k b).pc = s.pc := rfl
@[simp] theorem setKey_SP (k : KeyIx) (b : Bool) : (s.setKey k b).SP = s.SP := rfl
@[simp] theorem setKey_stack (k : KeyIx) (b : Bool) : (s.setKey k b).stack = s.stack := rfl
@[simp] theorem setKey_DT (k : KeyIx) (b : Bool) : (s.setKey k b).DT = s.DT := rfl
@[simp] theorem setKey_ST (k : KeyIx) (b : Bool) : (s.setKey k b).ST = s.ST := rfl
@[simp] theorem setKey_rng (k : KeyIx) (b : Bool) : (s.setKey k b).rng = s.rng := rfl
@[simp] theorem setKey_disp (k : KeyIx) (b : Bool) : (s.setKey k b).disp = s.disp := rfl
@[simp] theorem setKey_key (k : KeyIx) (b : Bool) : (s.setKey k b).key = s.key.set k b := rfl
@[simp] theorem setKey_wait (k : KeyIx) (b : Bool) : (s.setKey k b).wait = s.wait := rfl

/-! ### setWait -/

@[simp] theorem setWait_mem (w : Option RegIx) : (s.setWait w).mem = s.mem := rfl
@[simp] theorem setWait_V (w : Option RegIx) : (s.setWait w).V = s.V := rfl
@[simp] theorem setWait_I (w : Option RegIx) : (s.setWait w).I = s.I := rfl
@[simp] theorem setWait_pc (w : Option RegIx) : (s.setWait w).pc = s.pc := rfl
@[simp] theorem setWait_SP (w : Option RegIx) : (s.setWait w).SP = s.SP := rfl
@[simp] theorem setWait_stack (w : Option RegIx) : (s.setWait w).stack = s.stack := rfl
@[simp] theorem setWait_DT (w : Option RegIx) : (s.setWait w).DT = s.DT := rfl
@[simp] theorem setWait_ST (w : Option RegIx) : (s.setWait w).ST = s.ST := rfl
@[simp] theorem setWait_rng (w : Option RegIx) : (s.setWait w).rng = s.rng := rfl
@[simp] theorem setWait_disp (w : Option RegIx) : (s.setWait w).disp = s.disp := rfl
@[simp] theorem setWait_key (w : Option RegIx) : (s.setWait w).key = s.key := rfl
@[simp] theorem setWait_wait (w : Option RegIx) : (s.setWait w).wait = w := rfl

/-! ### setMem -/

@[simp] theorem setMem_mem (m : Memory) : (s.setMem m).mem = m := rfl
@[simp] theorem setMem_V (m : Memory) : (s.setMem m).V = s.V := rfl
@[simp] theorem setMem_I (m : Memory) : (s.setMem m).I = s.I := rfl
@[simp] theorem setMem_pc (m : Memory) : (s.setMem m).pc = s.pc := rfl
@[simp] theorem setMem_SP (m : Memory) : (s.setMem m).SP = s.SP := rfl
@[simp] theorem setMem_stack (m : Memory) : (s.setMem m).stack = s.stack := rfl
@[simp] theorem setMem_DT (m : Memory) : (s.setMem m).DT = s.DT := rfl
@[simp] theorem setMem_ST (m : Memory) : (s.setMem m).ST = s.ST := rfl
@[simp] theorem setMem_rng (m : Memory) : (s.setMem m).rng = s.rng := rfl
@[simp] theorem setMem_disp (m : Memory) : (s.setMem m).disp = s.disp := rfl
@[simp] theorem setMem_key (m : Memory) : (s.setMem m).key = s.key := rfl
@[simp] theorem setMem_wait (m : Memory) : (s.setMem m).wait = s.wait := rfl

end Sys2Proof.Machine
end

