-- ==== Sys2Proof/Laws/Memory.lean ====
section
/-! SUPPORT. Memory: reset contents, read after write, and that every operation keeps the canonical form. -/

namespace Sys2Proof.Machine

/-! ### Reset contents (R8, R61, R62) -/

theorem fontBase_le : fontBase ≤ 0x1B0 := by
  have := Config.fontBaseParam.isLt
  simp only [fontBase]; omega

theorem fontData_length : fontData.length = 80 := rfl

theorem resetByte_program {a : Nat} (h : 0x200 ≤ a) : resetByte a = 0 := by
  simp [resetByte, Config.progBase, h]

theorem resetByte_glyph {k : Nat} (h : k < 80) : resetByte (fontBase + k) = fontData.getD k 0 := by
  have := fontBase_le
  have h1 : ¬ 0x200 ≤ fontBase + k := by omega
  simp [resetByte, Config.progBase, h1, h]

theorem resetByte_elsewhere {a : Nat} (h : a < fontBase ∨ fontBase + 80 ≤ a) : resetByte a = 0 := by
  have h1 : ¬ (fontBase ≤ a ∧ a < fontBase + 80) := by omega
  simp [resetByte, h1]

/-! ### The canonical form -/

@[simp] theorem Memory.wf_nil : Memory.wf [] = true := rfl

theorem Memory.wfFrom_cons {lo a : Nat} {v : Byte} {m : Memory} :
    Memory.wfFrom lo ((a, v) :: m) = true ↔
      lo ≤ a ∧ a < 0x1000 ∧ v ≠ resetByte a ∧ Memory.wfFrom (a + 1) m = true := by
  simp only [Memory.wfFrom, Bool.and_eq_true, decide_eq_true_eq, and_assoc]
  rfl

theorem Memory.wfFrom_mono {lo lo' : Nat} {m : Memory} (h : Memory.wfFrom lo m = true) (hl : lo' ≤ lo) :
    Memory.wfFrom lo' m = true := by
  cases m with
  | nil => rfl
  | cons c rest =>
    obtain ⟨a, v⟩ := c
    rw [wfFrom_cons] at h ⊢
    exact ⟨by omega, h.2⟩

/-- Below the first listed address memory is as RESET left it. -/
theorem Memory.read_below {lo a : Nat} {m : Memory} (h : Memory.wfFrom lo m = true) (ha : a < lo) :
    m.read a = resetByte a := by
  induction m generalizing lo with
  | nil => rfl
  | cons c rest ih =>
    obtain ⟨b, v⟩ := c
    rw [wfFrom_cons] at h
    have hb : b ≠ a := by omega
    simpa [Memory.read, hb] using ih h.2.2.2 (by omega)

/-- Outside the address space nothing is listed (R60). -/
theorem Memory.read_above {lo a : Nat} {m : Memory} (h : Memory.wfFrom lo m = true) (ha : 0x1000 ≤ a) :
    m.read a = resetByte a := by
  induction m generalizing lo with
  | nil => rfl
  | cons c rest ih =>
    obtain ⟨b, v⟩ := c
    rw [wfFrom_cons] at h
    have hb : b ≠ a := by omega
    simpa [Memory.read, hb] using ih h.2.2.2

/-! ### One byte written -/

/-- A write leaves every other address alone. -/
theorem Memory.read_write_other (m : Memory) {a b : Nat} (v : Byte) (h : b ≠ a) :
    (m.write a v).read b = m.read b := by
  induction m with
  | nil => by_cases hv : v = resetByte a <;> simp [Memory.write, Memory.read, hv, h.symm]
  | cons c rest ih =>
    obtain ⟨d, u⟩ := c
    by_cases h1 : a < d
    · by_cases hv : v = resetByte a <;> simp [Memory.write, Memory.read, h1, hv, h.symm]
    · by_cases h2 : a = d
      · subst h2
        by_cases hv : v = resetByte a <;> simp [Memory.write, Memory.read, hv, h.symm]
      · simp [Memory.write, Memory.read, h1, h2, ih]

theorem Memory.read_write_same_from {lo : Nat} {m : Memory} (h : Memory.wfFrom lo m = true) (a : Nat) (v : Byte) :
    (m.write a v).read a = v := by
  induction m generalizing lo with
  | nil => by_cases hv : v = resetByte a <;> simp [Memory.write, Memory.read, hv]
  | cons c rest ih =>
    obtain ⟨d, u⟩ := c
    have hall := h
    rw [wfFrom_cons] at h
    by_cases h1 : a < d
    · by_cases hv : v = resetByte a
      · have hd : d ≠ a := by omega
        have := Memory.read_below h.2.2.2 (a := a) (by omega)
        simp [Memory.write, Memory.read, h1, hv, hd, this]
      · simp [Memory.write, Memory.read, h1, hv]
    · by_cases h2 : a = d
      · subst h2
        by_cases hv : v = resetByte a
        · have := Memory.read_below h.2.2.2 (a := a) (by omega)
          simp [Memory.write, hv, this]
        · simp [Memory.write, Memory.read, hv]
      · have hd : d ≠ a := fun e => h2 e.symm
        simpa [Memory.write, Memory.read, h1, h2, hd] using ih h.2.2.2

/-- A read returns the byte of the most recent write to its address (R70). -/
theorem Memory.read_write_same {m : Memory} (h : m.wf = true) (a : Nat) (v : Byte) :
    (m.write a v).read a = v :=
  Memory.read_write_same_from h a v

theorem Memory.read_write {m : Memory} (h : m.wf = true) (a b : Nat) (v : Byte) :
    (m.write a v).read b = if b = a then v else m.read b := by
  by_cases e : b = a
  · subst e; simp [Memory.read_write_same h]
  · simp [e, Memory.read_write_other m v e]

theorem Memory.write_wfFrom {lo a : Nat} {m : Memory} {v : Byte} (h : Memory.wfFrom lo m = true) (hl : lo ≤ a)
    (ha : a < 0x1000) : Memory.wfFrom lo (m.write a v) = true := by
  induction m generalizing lo with
  | nil =>
    by_cases hv : v = resetByte a
    · simp [Memory.write, hv, Memory.wfFrom]
    · simp [Memory.write, hv, Memory.wfFrom, Config.memSize, hl, ha]
  | cons c rest ih =>
    obtain ⟨d, u⟩ := c
    have hall := h
    rw [wfFrom_cons] at h
    by_cases h1 : a < d
    · by_cases hv : v = resetByte a
      · simpa [Memory.write, h1, hv] using hall
      · simp only [Memory.write, h1, hv, if_true, if_false]
        rw [wfFrom_cons, wfFrom_cons]
        exact ⟨hl, ha, hv, by omega, h.2⟩
    · by_cases h2 : a = d
      · subst h2
        by_cases hv : v = resetByte a
        · simpa [Memory.write, hv] using Memory.wfFrom_mono h.2.2.2 (by omega)
        · simp only [Memory.write, hv, lt_irrefl, if_true, if_false]
          rw [wfFrom_cons]
          exact ⟨hl, ha, hv, h.2.2.2⟩
      · simp only [Memory.write, h1, h2, if_false]
        rw [wfFrom_cons]
        exact ⟨h.1, h.2.1, h.2.2.1, ih h.2.2.2 (by omega)⟩

/-- A write inside memory keeps the canonical form. -/
theorem Memory.write_wf {a : Nat} {m : Memory} {v : Byte} (h : m.wf = true) (ha : a < 0x1000) :
    (m.write a v).wf = true :=
  Memory.write_wfFrom h (Nat.zero_le a) ha

/-! ### Several bytes -/

@[simp] theorem Memory.readBytes_length (m : Memory) (a k : Nat) : (m.readBytes a k).length = k := by
  simp [Memory.readBytes]

theorem Memory.readBytes_getD (m : Memory) {a k h : Nat} (hk : h < k) : (m.readBytes a k).getD h 0 = m.read (a + h) := by
  simp [Memory.readBytes, List.getD, hk]

/-- Writes of several bytes leave every address outside their range alone. -/
theorem Memory.read_writeBytes_other (m : Memory) {a b : Nat} (vs : List Byte) (h : b < a ∨ a + vs.length ≤ b) :
    (m.writeBytes a vs).read b = m.read b := by
  induction vs generalizing m a with
  | nil => rfl
  | cons v rest ih =>
    simp only [List.length_cons] at h
    rw [Memory.writeBytes, ih (m.write a v) (by omega), Memory.read_write_other m v (by omega)]

theorem Memory.writeBytes_wf {m : Memory} {a : Nat} {vs : List Byte} (h : m.wf = true) (ha : a + vs.length ≤ 0x1000) :
    (m.writeBytes a vs).wf = true := by
  induction vs generalizing m a with
  | nil => exact h
  | cons v rest ih =>
    simp only [List.length_cons] at ha
    exact ih (Memory.write_wf h (by omega)) (by omega)

/-- Each address of the range reads the byte written there. -/
theorem Memory.read_writeBytes_same {m : Memory} {a k : Nat} {vs : List Byte} (h : m.wf = true)
    (ha : a + vs.length ≤ 0x1000) (hk : k < vs.length) : (m.writeBytes a vs).read (a + k) = vs.getD k 0 := by
  induction vs generalizing m a k with
  | nil => simp at hk
  | cons v rest ih =>
    simp only [List.length_cons] at ha hk
    cases k with
    | zero =>
      rw [Memory.writeBytes, Memory.read_writeBytes_other _ _ (by omega)]
      simpa using Memory.read_write_same h a v
    | succ k =>
      have := ih (Memory.write_wf (a := a) (v := v) h (by omega)) (a := a + 1) (k := k) (by omega) (by omega)
      simpa [Memory.writeBytes, Nat.add_assoc, Nat.add_comm 1 k] using this

end Sys2Proof.Machine
end

