-- ==== Sys2Proof/Laws/Ops.lean ====
section
/-! SUPPORT. What each shared operation can do: register reads after writes, checks, fault reports, keys, blocks, results. -/

namespace Sys2Proof.Machine

/-! ### Registers -/

theorem V_set (V : Vector Byte 16) (x r : RegIx) (b : Byte) : (V.set x b)[r] = if r = x then b else V[r] := by
  by_cases h : r = x
  · subst h; simp
  · have h' : x.val ≠ r.val := fun e => h (Fin.ext e.symm)
    simp [h, h']

/-- A register after a register write (R12). -/
theorem setV_read (s : State) (x r : RegIx) (b : Byte) : (s.setV x b).V[r] = if r = x then b else s.V[r] := by
  simpa using V_set s.V x r b

theorem stack_set (S : Vector Word 16) (j k : Fin 16) (w : Word) : (S.set j w)[k] = if k = j then w else S[k] := by
  by_cases h : k = j
  · subst h; simp
  · have h' : j.val ≠ k.val := fun e => h (Fin.ext e.symm)
    simp [h, h']

theorem key_set (K : Vector Bool 16) (j k : Fin 16) (b : Bool) : (K.set j b)[k] = if k = j then b else K[k] := by
  by_cases h : k = j
  · subst h; simp
  · have h' : j.val ≠ k.val := fun e => h (Fin.ext e.symm)
    simp [h, h']

/-- Reading after one write, in the form simp leaves a read by a `Fin` in. -/
theorem vector_set_val {α : Type} {n : Nat} (V : Vector α n) (x r : Fin n) (b : α) :
    (V.set x b)[r.val] = if r = x then b else V[r.val] := by
  by_cases h : r = x
  · subst h; simp
  · have h' : x.val ≠ r.val := fun e => h (Fin.ext e.symm)
    simp [h, h']

/-! ### CALL and RET (R150, R152; log 14) -/

/-- CALL pushes and jumps with fewer than 15 calls outstanding, and else stops. -/
theorem execCall_cases (nnn : Word) (s : State) :
    (s.SP.toNat < 15 ∧ (s.SP + 1).toNat = s.SP.toNat + 1 ∧
      execCall nnn s = .next (((s.setSP (s.SP + 1)).setStack (stackIx (s.SP + 1)) s.pc).setPc nnn)) ∨
    (15 ≤ s.SP.toNat ∧ execCall nnn s = raise .stackOverflow s.SP.toNat) := by
  by_cases h : s.SP.toNat < 15
  · refine .inl ⟨h, by rw [BitVec.toNat_add]; simp; omega, if_neg ?_⟩
    simp only [stackDepth]; omega
  · exact .inr ⟨by omega, if_pos (by simp only [stackDepth]; omega)⟩

/-- RET pops with a call outstanding, and else stops. -/
theorem execRet_cases (s : State) :
    (s.SP.toNat = 0 ∧ execRet s = raise .stackUnderflow s.SP.toNat) ∨
    (1 ≤ s.SP.toNat ∧ s.SP.toNat ≤ 15 ∧ (s.SP - 1).toNat = s.SP.toNat - 1 ∧
      execRet s = .next ((s.setPc s.stack[stackIx s.SP]).setSP (s.SP - 1))) ∨
    (15 < s.SP.toNat ∧ execRet s = raise .stackOverflow s.SP.toNat) := by
  by_cases h0 : s.SP.toNat = 0
  · exact .inl ⟨h0, if_pos h0⟩
  by_cases h : s.SP.toNat ≤ 15
  · refine .inr (.inl ⟨by omega, h, by rw [BitVec.toNat_sub]; simp; omega, (if_neg h0).trans (if_neg ?_)⟩)
    simp only [stackDepth]; omega
  · exact .inr (.inr ⟨by omega, (if_neg h0).trans (if_pos (by simp only [stackDepth]; omega))⟩)

/-! ### Skips -/

theorem skipIf_cases (s : State) (c : Bool) :
    (c = true ∧ s.skipIf c = s.setPc (s.pc + 2)) ∨ (c = false ∧ s.skipIf c = s) := by
  cases c <;> simp [State.skipIf]

/-! ### The two checks (R65, R301) -/

theorem checkRange_pass {σ : Type} {cause : Cause} {a : Word} {k : Nat} {body : Answer σ} (h : a.toNat + k ≤ 0x1000) :
    checkRange cause a k body = body := by
  have h1 : ¬ (1 ≤ k ∧ a.toNat + k - 1 > 0xFFF) := by omega
  simp [checkRange, h1]

theorem checkRange_zero {σ : Type} {cause : Cause} {a : Word} {body : Answer σ} : checkRange cause a 0 body = body := by
  simp [checkRange]

theorem checkRange_fail {σ : Type} {cause : Cause} {a : Word} {k : Nat} {body : Answer σ} (hk : 1 ≤ k) (h : 0x1000 < a.toNat + k) :
    checkRange cause a k body = raise cause (max a.toNat 0x1000) := by
  have h1 : 1 ≤ k ∧ a.toNat + k - 1 > 0xFFF := by omega
  simp [checkRange, h1]

/-- Everything the range check can do. -/
theorem checkRange_cases {σ : Type} (cause : Cause) (a : Word) (k : Nat) (body : Answer σ) :
    ((k = 0 ∨ a.toNat + k ≤ 0x1000) ∧ checkRange cause a k body = body) ∨
    (1 ≤ k ∧ 0x1000 < a.toNat + k ∧ checkRange cause a k body = raise cause (max a.toNat 0x1000)) := by
  by_cases hk : k = 0
  · subst hk; exact .inl ⟨.inl rfl, checkRange_zero⟩
  · by_cases h : a.toNat + k ≤ 0x1000
    · exact .inl ⟨.inr h, checkRange_pass h⟩
    · exact .inr ⟨by omega, by omega, checkRange_fail (by omega) (by omega)⟩

/-- Everything the index check can do. -/
theorem checkIndex_cases (cause : Cause) (v : Byte) (body : Fin 16 → Result) :
    (∃ d : Fin 16, d.val = v.toNat ∧ checkIndex cause v body = body d) ∨
    (15 < v.toNat ∧ checkIndex cause v body = raise cause v.toNat) := by
  by_cases h : v.toNat > 15
  · exact .inr ⟨h, by simp [checkIndex, h]⟩
  · refine .inl ⟨Fin.ofNat 16 v.toNat, ?_, by simp [checkIndex, h]⟩
    simp only [Fin.val_ofNat]; omega

theorem checkIndex_pass {cause : Cause} {v : Byte} {body : Fin 16 → Result} (d : Fin 16) (h : d.val = v.toNat) :
    checkIndex cause v body = body d := by
  have h1 : ¬ v.toNat > 15 := by have := d.isLt; omega
  have h2 : Fin.ofNat 16 v.toNat = d := by apply Fin.ext; rw [Fin.val_ofNat, ← h]; exact Nat.mod_eq_of_lt d.isLt
  rw [checkIndex, if_neg h1, h2]

/-! ### Faults (R14, R127) -/

theorem raise_ne_next {σ : Type} {cause : Cause} {v : Nat} {t : σ} : raise cause v ≠ .next t := by simp [raise]

@[simp] theorem reportFault_next {σ : Type} (ipc : Word) (w : Option Word) (s : σ) : reportFault ipc w (.next s) = .next s := rfl

@[simp] theorem reportFault_raise {σ : Type} (ipc : Word) (w : Option Word) (cause : Cause) (v : Nat) :
    reportFault (σ := σ) ipc w (raise cause v) = .fault (.outOfBounds cause v ipc w) := rfl

@[simp] theorem reportFault_raised {σ : Type} (ipc : Word) (w : Option Word) (cause : Cause) (v : Nat) :
    reportFault (σ := σ) ipc w (.fault (.raised cause v)) = .fault (.outOfBounds cause v ipc w) := rfl

@[simp] theorem reportFault_reported {σ : Type} (ipc : Word) (w : Option Word) (cause : Cause) (v : Nat) (p : Word)
    (o : Option Word) : reportFault (σ := σ) ipc w (.fault (.outOfBounds cause v p o)) = .fault (.outOfBounds cause v p o) := rfl

@[simp] theorem reportFault_refused {σ : Type} (ipc : Word) (w : Option Word) (r : Refusal) :
    reportFault (σ := σ) ipc w (.refused r) = .refused r := rfl

theorem reportFault_eq_next {σ : Type} {ipc : Word} {w : Option Word} {r : Answer σ} {t : σ} :
    reportFault ipc w r = .next t ↔ r = .next t := by
  cases r with
  | next s => simp
  | fault f => cases f <;> simp
  | refused e => simp

/-! ### Keys (R273, R274) -/

/-- The least pressed key: pressed, and no lower one is. -/
theorem leastPressed_some {key : Vector Bool 16} {k : KeyIx} (h : leastPressed key = some k) :
    key[k] = true ∧ ∀ j : KeyIx, j < k → key[j] = false := by
  simp only [leastPressed, List.find?_eq_some_iff_getElem] at h
  obtain ⟨hk, i, hi, he, hlt⟩ := h
  refine ⟨hk, fun j hj => ?_⟩
  have hik : k.val = i := by rw [← he]; simp
  have hjl : j.val < (List.finRange 16).length := by simp
  have := hlt j.val (by have : j.val < k.val := hj; omega)
  simpa using this

theorem leastPressed_none {key : Vector Bool 16} (h : leastPressed key = none) (k : KeyIx) : key[k] = false := by
  simp only [leastPressed, List.find?_eq_none] at h
  simpa using h k (List.mem_finRange k)

/-! ### Blocks of registers (R224, R225) -/

theorem registerBlock_length (s : State) (x : RegIx) : (registerBlock s x).length = x.val + 1 := by
  simp only [registerBlock, List.length_take, Vector.length_toList]; omega

theorem registerBlock_getD (s : State) (x r : RegIx) (h : r ≤ x) : (registerBlock s x).getD r.val 0 = s.V[r] := by
  have h1 : r.val < x.val + 1 := Nat.lt_succ_of_le h
  simp [registerBlock, List.getD, h1]

theorem loadBlock_read (m : Memory) (base : Nat) (x r : RegIx) (V : Vector Byte 16) :
    (loadBlock m base x V)[r] = if r ≤ x then m.read (base + r.val) else V[r] := by
  show (Vector.ofFn fun q : Fin 16 => if q.val ≤ x.val then m.read (base + q.val) else V[q])[r.val] = _
  rw [Vector.getElem_ofFn]
  rfl

/-! ### Results as numbers (R181 to R192, R312) -/

theorem sumByte_toNat (a b : Byte) : (sumByte a b).toNat = (a.toNat + b.toNat) % 256 := by simp [sumByte]

theorem differenceByte_toNat (a b : Byte) : (differenceByte a b).toNat = (a.toNat + 256 - b.toNat) % 256 := by
  simp [differenceByte]

theorem shiftRightByte_toNat (a : Byte) : (shiftRightByte a).toNat = a.toNat / 2 := by
  have := a.isLt; simp [shiftRightByte]; omega

theorem shiftLeftByte_toNat (a : Byte) : (shiftLeftByte a).toNat = a.toNat * 2 % 256 := by simp [shiftLeftByte]

theorem flagByte_toNat (b : Bool) : (flagByte b).toNat = if b then 1 else 0 := by cases b <;> rfl

theorem flagByte_decide (p : Prop) [Decidable p] : flagByte (decide p) = if p then 1 else 0 := by
  by_cases h : p <;> simp [flagByte, h]

/-- SHR's flag is bit 0 (R188). -/
theorem shiftedRightFlag_bit (v : Byte) : shiftedRightFlag v = if v.getLsbD 0 then 1 else 0 := by
  have h : v.getLsbD 0 = decide (v.toNat % 2 = 1) := by
    simp [BitVec.getLsbD, Nat.testBit, beq_eq_decide]
  rw [shiftedRightFlag, flagByte_decide, h]
  simp only [decide_eq_true_eq]

/-- SHL's flag is bit 7 (R190). -/
theorem shiftedLeftFlag_bit (v : Byte) : shiftedLeftFlag v = if v.getLsbD 7 then 1 else 0 := by
  have h : v.getLsbD 7 = decide (v.toNat / 128 % 2 = 1) := by
    simp [BitVec.getLsbD, Nat.testBit, Nat.shiftRight_eq_div_pow, beq_eq_decide]
  rw [shiftedLeftFlag, flagByte_decide, h]
  simp only [decide_eq_true_eq]

theorem nextRng_toNat (r : RngWord) : (nextRng r).toNat = (r.toNat * 1664525 + 1013904223) % 4294967296 := by
  rw [nextRng, BitVec.toNat_ofNat, Nat.mul_comm, Nat.add_comm]

theorem rngByte_toNat (r : RngWord) : (rngByte r).toNat = r.toNat / 2 ^ 24 := by
  have := r.isLt; simp [rngByte]; omega

/-- The returned byte is bits 31 to 24 of the state. -/
theorem rngByte_getLsbD (r : RngWord) (k : Nat) : (rngByte r).getLsbD k = (decide (k < 8) && r.getLsbD (24 + k)) := by
  have h : rngByte r = (r >>> 24).setWidth 8 := by
    apply BitVec.eq_of_toNat_eq
    have := r.isLt
    simp [rngByte_toNat, Nat.shiftRight_eq_div_pow]; omega
  simp [h]

/-- What RND answers (R191). -/
theorem execRnd_eq (x : RegIx) (kk : Byte) (s : State) :
    execRnd x kk s = .next ((s.setRng (nextRng s.rng)).setV x (rngByte (nextRng s.rng) &&& kk)) := rfl

theorem keyByte_toNat (k : KeyIx) : (keyByte k).toNat = k.val := by
  have := k.isLt; simp [keyByte]; omega

theorem v0Target_toNat {s : State} {nnn : Word} (h : nnn.toNat < 0x1000) :
    (v0Target s nnn).toNat = s.V[(0 : RegIx)].toNat + nnn.toNat := by
  have := s.V[(0 : RegIx)].isLt
  simp only [v0Target, regOperand, BitVec.toNat_ofNat]; omega

theorem glyphAddress_toNat (d : Fin 16) : (glyphAddress d).toNat = fontBase + 5 * d.val := by
  have := d.isLt; have := fontBase_le
  simp only [glyphAddress, BitVec.toNat_ofNat]; omega

theorem stackIx_val {sp : Byte} (h : sp.toNat ≤ 15) : (stackIx sp).val = sp.toNat := by
  simp only [stackIx, Fin.val_ofNat]; omega

end Sys2Proof.Machine
end

