-- ==== Sys2Proof/Laws/Draw.lean ====
section
/-! SUPPORT. Drawing in closed form: which cells a sprite inverts and when a collision occurs. No cell is visited twice. -/

namespace Sys2Proof.Machine

theorem Display.cell_setCell (d : Display) (r r' : Fin 32) (c c' : Fin 64) (b : Bool) :
    (d.setCell r c b).cell r' c' = if r' = r ∧ c' = c then b else d.cell r' c' := by
  by_cases hr : r' = r
  · subst hr
    by_cases hc : c' = c
    · subst hc; simp [Display.cell, Display.setCell]
    · have hc' : c.val ≠ c'.val := fun e => hc (Fin.ext e.symm)
      simp [Display.cell, Display.setCell, hc, hc']
  · have hr' : r.val ≠ r'.val := fun e => hr (Fin.ext e.symm)
    simp [Display.cell, Display.setCell, hr, hr']

@[simp] theorem Display.blank_cell (r : Fin 32) (c : Fin 64) : Display.blank.cell r c = false := by
  simp [Display.cell, Display.blank]

/-- The sprite column that falls on display column `c` when the sprite starts at column `vx`. -/
def columnOffset (vx : Byte) (c : Fin 64) : Nat := (c.val + 256 - vx.toNat) % 64

/-- The sprite row that falls on display row `r`, counted from row `h`, when the sprite starts at row `vy`. -/
def lineOffset (vy : Byte) (h : Nat) (r : Fin 32) : Nat := (r.val + 256 + 31 * h - vy.toNat) % 32

theorem columnOffset_eq {vx : Byte} {c : Fin 64} {p : Nat} (hp : p < 64) :
    columnOffset vx c = p ↔ drawColumn vx p = c := by
  have := vx.isLt; have := c.isLt
  rw [Fin.ext_iff]; simp only [columnOffset, drawColumn, Fin.val_ofNat]; omega

theorem lineOffset_eq {vy : Byte} {h : Nat} {r : Fin 32} {k : Nat} (hk : k < 32) :
    lineOffset vy h r = k ↔ drawLine vy (h + k) = r := by
  have := vy.isLt; have := r.isLt
  rw [Fin.ext_iff]; simp only [lineOffset, drawLine, Fin.val_ofNat]; omega

/-- The bit a sprite byte draws in column `c`, of its first `k` bits. -/
def byteBit (vx : Byte) (b : Byte) (k : Nat) (c : Fin 64) : Bool :=
  decide (columnOffset vx c < k) && spriteBit b (columnOffset vx c)

theorem drawPixel_display (r : Fin 32) (c : Fin 64) (b : Bool) (a : Display × Bool) :
    (drawPixel r c b a).1 = a.1.setCell r c (a.1.cell r c ^^ b) := rfl

theorem drawPixel_collided (r : Fin 32) (c : Fin 64) (b : Bool) (a : Display × Bool) :
    (drawPixel r c b a).2 = (a.2 || (b && a.1.cell r c)) := rfl

/-- The first `k` pixels of one sprite byte. -/
theorem drawPixels_spec (vx b : Byte) (r : Fin 32) (a : Display × Bool) (k : Nat) (hk : k ≤ 64) :
    let out := (List.range k).foldl (fun a p => drawPixel r (drawColumn vx p) (spriteBit b p) a) a
    (∀ r' c, out.1.cell r' c = (a.1.cell r' c ^^ (decide (r' = r) && byteBit vx b k c))) ∧
    out.2 = (a.2 || (List.range k).any fun p => spriteBit b p && a.1.cell r (drawColumn vx p)) := by
  induction k with
  | zero => simp [byteBit]
  | succ k ih =>
    obtain ⟨hc, hf⟩ := ih (by omega)
    have hself : columnOffset vx (drawColumn vx k) = k := (columnOffset_eq (by omega)).2 rfl
    simp only [List.range_succ, List.foldl_append, List.foldl_cons, List.foldl_nil, drawPixel_display,
      drawPixel_collided]
    refine ⟨fun r' c => ?_, ?_⟩
    · rw [Display.cell_setCell, hc, hc]
      by_cases hr : r' = r
      · subst hr
        by_cases hcc : c = drawColumn vx k
        · subst hcc; simp [byteBit, hself]
        · have hne : columnOffset vx c ≠ k := fun e => hcc ((columnOffset_eq (by omega)).1 e).symm
          have hlt : (columnOffset vx c < k + 1) = (columnOffset vx c < k) := by
            apply propext; omega
          simp [hcc, byteBit, hlt]
      · simp [hr]
    · rw [hf, hc]
      simp [byteBit, hself, Bool.or_assoc, List.any_append]

/-- One sprite byte. -/
theorem drawByte_spec (vx b : Byte) (r : Fin 32) (a : Display × Bool) :
    (∀ r' c, (drawByte vx r b a).1.cell r' c = (a.1.cell r' c ^^ (decide (r' = r) && byteBit vx b 8 c))) ∧
    (drawByte vx r b a).2 = (a.2 || (List.range 8).any fun p => spriteBit b p && a.1.cell r (drawColumn vx p)) :=
  drawPixels_spec vx b r a 8 (by omega)

/-- The bit a sprite draws at a cell. -/
def spriteAt (vx vy : Byte) (h : Nat) (rows : List Byte) (r : Fin 32) (c : Fin 64) : Bool :=
  decide (lineOffset vy h r < rows.length) && byteBit vx (rows.getD (lineOffset vy h r) 0) 8 c

/-- A sprite of at most 32 rows inverts exactly the cells where it has a 1-bit, and collides exactly when one of its
1-bits falls on a cell that was 1 (R252, R253). -/
theorem drawRows_spec (vx vy : Byte) (h : Nat) (rows : List Byte) (a : Display × Bool) (hn : rows.length ≤ 32) :
    (∀ r c, (drawRows vx vy h rows a).1.cell r c = (a.1.cell r c ^^ spriteAt vx vy h rows r c)) ∧
    (drawRows vx vy h rows a).2 = (a.2 || (List.range rows.length).any fun k => (List.range 8).any fun p =>
      spriteBit (rows.getD k 0) p && a.1.cell (drawLine vy (h + k)) (drawColumn vx p)) := by
  induction rows generalizing h a with
  | nil => simp [drawRows, spriteAt]
  | cons b rest ih =>
    simp only [List.length_cons] at hn
    obtain ⟨hb, hbf⟩ := drawByte_spec vx b (drawLine vy h) a
    obtain ⟨hc, hf⟩ := ih (h + 1) (drawByte vx (drawLine vy h) b a) (by omega)
    have hline : ∀ k, k < rest.length → drawLine vy (h + 1 + k) ≠ drawLine vy h := by
      intro k hk e
      have h0 := (lineOffset_eq (vy := vy) (h := h) (r := drawLine vy h) (k := 0) (by omega)).2 rfl
      have h1 := (lineOffset_eq (vy := vy) (h := h) (r := drawLine vy h) (k := k + 1) (by omega)).2
        (by rw [← e]; congr 1; omega)
      omega
    refine ⟨fun r c => ?_, ?_⟩
    · rw [drawRows, hc, hb]
      have hlt : lineOffset vy h r < 32 := Nat.mod_lt _ (by omega)
      by_cases hr : r = drawLine vy h
      · have h0 : lineOffset vy h r = 0 := (lineOffset_eq (by omega)).2 (by rw [hr]; rfl)
        have h1 : ¬ lineOffset vy (h + 1) r < rest.length := by
          intro hk
          have := (lineOffset_eq (vy := vy) (h := h + 1) (r := r) (k := lineOffset vy (h + 1) r) (by omega)).1 rfl
          exact hline _ hk (this.trans hr)
        subst hr
        simp [spriteAt, h0, h1]
      · have h0 : lineOffset vy h r ≠ 0 := fun e => hr (((lineOffset_eq (by omega)).1 e).symm.trans rfl)
        obtain ⟨j, hj⟩ : ∃ j, lineOffset vy h r = j + 1 := ⟨lineOffset vy h r - 1, by omega⟩
        have h1 : lineOffset vy (h + 1) r = j := by
          have e := (lineOffset_eq (vy := vy) (h := h) (r := r) (k := j + 1) (by omega)).1 hj
          exact (lineOffset_eq (by omega)).2 (by rw [← e]; congr 1; omega)
        simp [spriteAt, hj, h1, hr]
    · rw [drawRows, hf, hbf, List.length_cons, List.range_succ_eq_map (n := rest.length)]
      simp only [List.any_cons, List.any_map, List.getD_cons_zero, Nat.add_zero, Bool.or_assoc]
      congr 2
      rw [Bool.eq_iff_iff]
      simp only [List.any_eq_true, List.mem_range, Function.comp, List.getD_cons_succ]
      constructor
      · rintro ⟨k, hk, p, hp, hx⟩
        refine ⟨k, hk, p, hp, ?_⟩
        rw [hb] at hx
        have hne : drawLine vy (h + (k + 1)) ≠ drawLine vy h := by
          have e : h + 1 + k = h + (k + 1) := by omega
          exact e ▸ hline k hk
        simpa [hne, Nat.add_assoc, Nat.add_comm 1 k] using hx
      · rintro ⟨k, hk, p, hp, hx⟩
        refine ⟨k, hk, p, hp, ?_⟩
        rw [hb]
        have hne : drawLine vy (h + (k + 1)) ≠ drawLine vy h := by
          have e : h + 1 + k = h + (k + 1) := by omega
          exact e ▸ hline k hk
        simpa [hne, Nat.add_assoc, Nat.add_comm 1 k] using hx

end Sys2Proof.Machine
end

