-- ==== Sys2Proof/Laws/Frames.lean ====
section
/-! SUPPORT. What each shared update leaves unchanged: one frame lemma per shape of instruction. -/

namespace Sys2Proof.Machine

theorem FrameExcept.refl (changed : Part → Prop) (s : State) : FrameExcept changed s s := by
  intro p _; cases p <;> rfl

theorem FrameExcept.trans {changed : Part → Prop} {s t u : State} (h1 : FrameExcept changed s t)
    (h2 : FrameExcept changed t u) : FrameExcept changed s u := by
  intro p hp
  have a := h1 p hp
  have b := h2 p hp
  cases p <;> exact Eq.trans b a

theorem FrameExcept.mono {changed more : Part → Prop} {s t : State} (h : FrameExcept changed s t)
    (hm : ∀ p, changed p → more p) : FrameExcept more s t := fun p hp => h p fun hc => hp (hm p hc)

theorem frame_setV (s : State) (x : RegIx) (b : Byte) : FrameExcept (fun p => p = .reg x) s (s.setV x b) := by
  intro p hp
  cases p with
  | reg r =>
    have h : r ≠ x := fun h => hp (by rw [h])
    simp only [Part.Same, setV_read, if_neg h]
  | _ => rfl

/-- The flag instructions write VF and Vx. -/
theorem frame_flag_result (s : State) (x : RegIx) (flag result : Byte) :
    FrameExcept (fun p => p = .reg x ∨ p = .reg 15) s ((s.setVF flag).setV x result) := by
  intro p hp
  cases p with
  | reg r =>
    have h1 : r ≠ x := fun h => hp (.inl (by rw [h]))
    have h2 : r ≠ 15 := fun h => hp (.inr (by rw [h]))
    simp only [Part.Same, setV_V, setVF_V, V_set, vf, if_neg h1, if_neg h2]
  | _ => rfl

theorem frame_setPc (s : State) (w : Word) : FrameExcept (fun p => p = .pc) s (s.setPc w) := by
  intro p hp
  cases p with
  | pc => exact absurd rfl hp
  | _ => rfl

theorem frame_skipIf (s : State) (c : Bool) : FrameExcept (fun p => p = .pc) s (s.skipIf c) := by
  rcases skipIf_cases s c with ⟨_, h⟩ | ⟨_, h⟩ <;> rw [h]
  · exact frame_setPc _ _
  · exact FrameExcept.refl _ _

theorem frame_setI (s : State) (w : Word) : FrameExcept (fun p => p = .index) s (s.setI w) := by
  intro p hp
  cases p with
  | index => exact absurd rfl hp
  | _ => rfl

/-- A block of bytes stored from address a on changes those bytes only. -/
theorem frame_writeBytes (s : State) (a : Nat) (vs : List Byte) :
    FrameExcept (bytesFrom a vs.length) s (s.setMem (s.mem.writeBytes a vs)) := by
  intro p hp
  cases p with
  | byte b =>
    have h : b < a ∨ a + vs.length ≤ b := by
      by_contra hc
      exact hp ⟨b, by omega, by omega, rfl⟩
    exact Memory.read_writeBytes_other s.mem vs h
  | _ => rfl

end Sys2Proof.Machine
end

