-- ==== Sys2Proof/Laws/PerInstr.lean ====
section
/-! SUPPORT. Laws stated once per instruction: the family EncodingRow. -/

namespace Sys2Proof.Laws.EncodingRow

/-- The word of the instruction lies in the instruction's own row of the opcode table: `(w AND mask) = match` (R94). -/
def Statement (i : Instr) : Prop := encode i &&& i.row.mask = i.row.bits

theorem nnnRow {m : Nat} (hm : m < 16) (nnn : Word) : wordNnn m nnn &&& 0xF000 = BitVec.ofNat 16 (m * 0x1000) := by
  apply BitVec.eq_of_toNat_eq
  rw [and_F000_toNat, wordNnn_toNat hm, BitVec.toNat_ofNat]; omega

theorem immediateRow {m : Nat} (hm : m < 16) (x : RegIx) (kk : Byte) :
    wordXKk m x kk &&& 0xF000 = BitVec.ofNat 16 (m * 0x1000) := by
  apply BitVec.eq_of_toNat_eq
  have := x.isLt; have := kk.isLt
  rw [and_F000_toNat, wordXKk_toNat hm, BitVec.toNat_ofNat]; omega

theorem subcodeRow {m : Nat} (hm : m < 16) (x : RegIx) (kk : Byte) :
    wordXKk m x kk &&& 0xF0FF = BitVec.ofNat 16 (m * 0x1000 + kk.toNat) := by
  apply BitVec.eq_of_toNat_eq
  have := x.isLt; have := kk.isLt
  rw [and_F0FF_toNat, wordXKk_toNat hm, BitVec.toNat_ofNat]; omega

theorem registersRow {m : Nat} (hm : m < 16) (x y : RegIx) (n : Nat) :
    wordXYN m x y n &&& 0xF00F = BitVec.ofNat 16 (m * 0x1000 + n % 0x10) := by
  apply BitVec.eq_of_toNat_eq
  have := x.isLt; have := y.isLt
  rw [and_F00F_toNat, wordXYN_toNat hm, BitVec.toNat_ofNat]; omega

theorem spriteRow {m : Nat} (hm : m < 16) (x y : RegIx) (n : Nat) :
    wordXYN m x y n &&& 0xF000 = BitVec.ofNat 16 (m * 0x1000) := by
  apply BitVec.eq_of_toNat_eq
  have := x.isLt; have := y.isLt
  rw [and_F000_toNat, wordXYN_toNat hm, BitVec.toNat_ofNat]; omega

theorem cls : Statement (.cls) := rfl

theorem ret : Statement (.ret) := rfl

theorem jp (nnn : Word) : Statement (.jp nnn) := nnnRow (m := 0x1) (by decide) nnn

theorem call (nnn : Word) : Statement (.call nnn) := nnnRow (m := 0x2) (by decide) nnn

theorem seKk (x : RegIx) (kk : Byte) : Statement (.seKk x kk) := immediateRow (m := 0x3) (by decide) x kk

theorem sneKk (x : RegIx) (kk : Byte) : Statement (.sneKk x kk) := immediateRow (m := 0x4) (by decide) x kk

theorem seVy (x : RegIx) (y : RegIx) : Statement (.seVy x y) := registersRow (m := 0x5) (by decide) x y 0x0

theorem ldKk (x : RegIx) (kk : Byte) : Statement (.ldKk x kk) := immediateRow (m := 0x6) (by decide) x kk

theorem addKk (x : RegIx) (kk : Byte) : Statement (.addKk x kk) := immediateRow (m := 0x7) (by decide) x kk

theorem ldVy (x : RegIx) (y : RegIx) : Statement (.ldVy x y) := registersRow (m := 0x8) (by decide) x y 0x0

theorem orVy (x : RegIx) (y : RegIx) : Statement (.orVy x y) := registersRow (m := 0x8) (by decide) x y 0x1

theorem andVy (x : RegIx) (y : RegIx) : Statement (.andVy x y) := registersRow (m := 0x8) (by decide) x y 0x2

theorem xorVy (x : RegIx) (y : RegIx) : Statement (.xorVy x y) := registersRow (m := 0x8) (by decide) x y 0x3

theorem addVy (x : RegIx) (y : RegIx) : Statement (.addVy x y) := registersRow (m := 0x8) (by decide) x y 0x4

theorem subVy (x : RegIx) (y : RegIx) : Statement (.subVy x y) := registersRow (m := 0x8) (by decide) x y 0x5

theorem shr (x : RegIx) : Statement (.shr x) := registersRow (m := 0x8) (by decide) x 0 0x6

theorem subnVy (x : RegIx) (y : RegIx) : Statement (.subnVy x y) := registersRow (m := 0x8) (by decide) x y 0x7

theorem shl (x : RegIx) : Statement (.shl x) := registersRow (m := 0x8) (by decide) x 0 0xE

theorem sneVy (x : RegIx) (y : RegIx) : Statement (.sneVy x y) := registersRow (m := 0x9) (by decide) x y 0x0

theorem ldI (nnn : Word) : Statement (.ldI nnn) := nnnRow (m := 0xA) (by decide) nnn

theorem jpV0 (nnn : Word) : Statement (.jpV0 nnn) := nnnRow (m := 0xB) (by decide) nnn

theorem rnd (x : RegIx) (kk : Byte) : Statement (.rnd x kk) := immediateRow (m := 0xC) (by decide) x kk

theorem drw (x : RegIx) (y : RegIx) (n : Nat) : Statement (.drw x y n) := spriteRow (m := 0xD) (by decide) x y n

theorem skp (x : RegIx) : Statement (.skp x) := subcodeRow (m := 0xE) (by decide) x 0x9E

theorem sknp (x : RegIx) : Statement (.sknp x) := subcodeRow (m := 0xE) (by decide) x 0xA1

theorem ldVxDt (x : RegIx) : Statement (.ldVxDt x) := subcodeRow (m := 0xF) (by decide) x 0x07

theorem ldVxK (x : RegIx) : Statement (.ldVxK x) := subcodeRow (m := 0xF) (by decide) x 0x0A

theorem ldDtVx (x : RegIx) : Statement (.ldDtVx x) := subcodeRow (m := 0xF) (by decide) x 0x15

theorem ldStVx (x : RegIx) : Statement (.ldStVx x) := subcodeRow (m := 0xF) (by decide) x 0x18

theorem addIVx (x : RegIx) : Statement (.addIVx x) := subcodeRow (m := 0xF) (by decide) x 0x1E

theorem ldFVx (x : RegIx) : Statement (.ldFVx x) := subcodeRow (m := 0xF) (by decide) x 0x29

theorem ldBVx (x : RegIx) : Statement (.ldBVx x) := subcodeRow (m := 0xF) (by decide) x 0x33

theorem ldMemVx (x : RegIx) : Statement (.ldMemVx x) := subcodeRow (m := 0xF) (by decide) x 0x55

theorem ldVxMem (x : RegIx) : Statement (.ldVxMem x) := subcodeRow (m := 0xF) (by decide) x 0x65

end Sys2Proof.Laws.EncodingRow
end

