-- ==== Sys2Proof/Laws/Step.lean ====
section
/-! SUPPORT. What one cycle can do: the three ways it moves the state, with the outcome each returns, and the two ways it
faults. -/

namespace Sys2Proof.Machine

@[simp] theorem afterFetch_pc (s : State) : (afterFetch s).pc = s.pc + 2 := rfl
@[simp] theorem afterFetch_mem (s : State) : (afterFetch s).mem = s.mem := rfl
@[simp] theorem afterFetch_V (s : State) : (afterFetch s).V = s.V := rfl
@[simp] theorem afterFetch_I (s : State) : (afterFetch s).I = s.I := rfl
@[simp] theorem afterFetch_SP (s : State) : (afterFetch s).SP = s.SP := rfl
@[simp] theorem afterFetch_stack (s : State) : (afterFetch s).stack = s.stack := rfl
@[simp] theorem afterFetch_DT (s : State) : (afterFetch s).DT = s.DT := rfl
@[simp] theorem afterFetch_ST (s : State) : (afterFetch s).ST = s.ST := rfl
@[simp] theorem afterFetch_rng (s : State) : (afterFetch s).rng = s.rng := rfl
@[simp] theorem afterFetch_disp (s : State) : (afterFetch s).disp = s.disp := rfl
@[simp] theorem afterFetch_key (s : State) : (afterFetch s).key = s.key := rfl
@[simp] theorem afterFetch_wait (s : State) : (afterFetch s).wait = s.wait := rfl

/-! ### The outcome and the state of a cycle -/

@[simp] theorem returnSuccess_next (t : State) : returnSuccess (.next t) = .next (.success, t) := rfl
@[simp] theorem returnSuccess_fault (f : Fault) : returnSuccess (.fault f) = .fault f := rfl
@[simp] theorem returnSuccess_refused (r : Refusal) : returnSuccess (.refused r) = .refused r := rfl
@[simp] theorem leftState_next (o : CycleOutcome) (t : State) : leftState (.next (o, t)) = .next t := rfl
@[simp] theorem leftState_fault (f : Fault) : leftState (.fault f) = .fault f := rfl
@[simp] theorem leftState_refused (r : Refusal) : leftState (.refused r) = .refused r := rfl

@[simp] theorem leftState_returnSuccess (r : Result) : leftState (returnSuccess r) = r := by cases r <;> rfl

/-- A fault record that is already complete passes the fetch's report unchanged. -/
theorem reportFault_reported_success (ipc : Word) (o : Option Word) (p : Word) (w : Option Word) (r : Result) :
    reportFault ipc o (returnSuccess (reportFault p w r)) = returnSuccess (reportFault p w r) := by
  cases r with
  | next t => rfl
  | fault f => cases f <;> rfl
  | refused e => rfl

/-! ### The four ways through a cycle -/

/-- A waiting cycle is the wait step (R121). -/
theorem runCycle_waiting {s : State} {x : RegIx} (h : s.wait = some x) :
    runCycle s = .next (.success, waitStep x s) := by simp [runCycle, h]

/-- A fetch outside memory faults (R122). -/
theorem runCycle_fetch_fault {s : State} (hw : s.wait = none) (hp : 0xFFF ≤ s.pc.toNat) :
    runCycle s = .fault (.outOfBounds .fetch (max s.pc.toNat 0x1000) s.pc none) := by
  simp only [runCycle, hw]
  rw [checkRange_fail (by omega) (by omega), reportFault_raise]

/-- An unsupported word is passed over and returned as such (R124). -/
theorem runCycle_unsupported {s : State} {u : Word} (hw : s.wait = none) (hp : s.pc.toNat < 0xFFF)
    (hd : decode (fetchWord s) = .unsupported u) : runCycle s = .next (.unsupportedOpcode u s.pc, afterFetch s) := by
  simp only [runCycle, hw]
  rw [checkRange_pass (by omega)]
  simp only [executeWord, hd, reportFault_next]

/-- An instruction is executed on the state after the fetch; its fault is reported with the address and the word (R125,
R127). -/
theorem runCycle_instr {s : State} {i : Instr} (hw : s.wait = none) (hp : s.pc.toNat < 0xFFF)
    (hd : decode (fetchWord s) = .instr i) :
    runCycle s = returnSuccess (reportFault s.pc (some (fetchWord s)) (exec i (afterFetch s))) := by
  simp only [runCycle, hw]
  rw [checkRange_pass (by omega)]
  simp only [executeWord, hd, reportFault_reported_success]

/-! ### The same for the step -/

theorem step_waiting {s : State} {x : RegIx} (h : s.wait = some x) : step s = .next (waitStep x s) := by
  rw [step, runCycle_waiting h, leftState_next]

theorem step_fetch_fault {s : State} (hw : s.wait = none) (hp : 0xFFF ≤ s.pc.toNat) :
    step s = .fault (.outOfBounds .fetch (max s.pc.toNat 0x1000) s.pc none) := by
  rw [step, runCycle_fetch_fault hw hp, leftState_fault]

theorem step_unsupported {s : State} {u : Word} (hw : s.wait = none) (hp : s.pc.toNat < 0xFFF)
    (hd : decode (fetchWord s) = .unsupported u) : step s = .next (afterFetch s) := by
  rw [step, runCycle_unsupported hw hp hd, leftState_next]

theorem step_instr {s : State} {i : Instr} (hw : s.wait = none) (hp : s.pc.toNat < 0xFFF)
    (hd : decode (fetchWord s) = .instr i) :
    step s = reportFault s.pc (some (fetchWord s)) (exec i (afterFetch s)) := by
  rw [step, runCycle_instr hw hp hd, leftState_returnSuccess]

/-- The three ways a step moves the state. -/
theorem step_next_cases {s t : State} (h : step s = .next t) :
    (∃ x, s.wait = some x ∧ t = waitStep x s) ∨
    (s.wait = none ∧ s.pc.toNat < 0xFFF ∧ decode (fetchWord s) = .unsupported (fetchWord s) ∧ t = afterFetch s) ∨
    (∃ i, s.wait = none ∧ s.pc.toNat < 0xFFF ∧ decode (fetchWord s) = .instr i ∧ exec i (afterFetch s) = .next t) := by
  rcases hw : s.wait with _ | x
  · by_cases hp : s.pc.toNat < 0xFFF
    · cases hd : decode (fetchWord s) with
      | unsupported u =>
        have hu := decode_unsupported_self hd; subst hu
        rw [step_unsupported hw hp hd] at h
        cases h
        exact .inr (.inl ⟨rfl, hp, rfl, rfl⟩)
      | instr i =>
        rw [step_instr hw hp hd, reportFault_eq_next] at h
        exact .inr (.inr ⟨i, rfl, hp, rfl, h⟩)
    · rw [step_fetch_fault hw (by omega)] at h
      cases h
  · rw [step_waiting hw] at h
    cases h
    exact .inl ⟨x, rfl, rfl⟩

/-! ### CYCLE and the step agree -/

/-- Where the step moves on, CYCLE returns Success or UnsupportedOpcode with the same state. -/
theorem cycle_of_runCycle_next {s t : State} {o : CycleOutcome} (h : runCycle s = .next (o, t)) :
    cycle s = .next (o, t) ∧ step s = .next t := by
  constructor
  · simp only [cycle, h]
  · rw [step, h, leftState_next]

/-- Where the step faults, CYCLE returns the fault and the state it began with (R127). -/
theorem cycle_of_step_fault {s : State} {f : Fault} (h : step s = .fault f) : cycle s = .next (.fault f, s) := by
  rw [step] at h
  cases hr : runCycle s with
  | next p => rw [hr] at h; cases h
  | fault g => rw [hr] at h; cases h; simp only [cycle, hr]
  | refused r => rw [hr] at h; cases h

end Sys2Proof.Machine
end

