-- ==== Sys2Proof/Tests/Slice0.lean ====
section
/-! SUPPORT. The model's own tests. Words are written out from the encodings of spec/30_encoding.md R94; expected results are
the vectors of spec/95_test_vectors.md, named at each test. The last part shows, for every statement with hypotheses, states
and operands that meet them. -/

namespace Sys2Proof.Tests

open Sys2Proof Sys2Proof.Machine

/-! ### Small states and outcomes -/

/-- RESET with SEED = 0, as the vectors assume. -/
def base : State := State.resetWith 0

/-- `s` with the word `w` at its pc. -/
def at_ (w : Word) (s : State) : State := placeWord s w

/-- `s` with byte `v` at address `a`. -/
def poke (a : Nat) (v : Byte) (s : State) : State := s.setMem (s.mem.write a v)

/-- `s` with display cell (column `c`, row `r`) lit. -/
def lit (c : Fin 64) (r : Fin 32) (s : State) : State := s.setDisp (s.disp.setCell r c true)

/-- The outcome is a next state that passes `p`. -/
def goes (o : Result) (p : State → Bool) : Bool :=
  match o with
  | .next t => p t
  | .fault _ => false
  | .refused _ => false

/-- The outcome is this fault. -/
def stops (o : Result) (f : Fault) : Bool :=
  match o with
  | .next _ => false
  | .fault g => decide (g = f)
  | .refused _ => false

/-- CYCLE returns this outcome with a state that passes `p`. -/
def returns (a : CycleAnswer) (o : CycleOutcome) (p : State → Bool) : Bool :=
  match a with
  | .next (q, t) => decide (q = o) && p t
  | .fault _ => false
  | .refused _ => false

/-! ### WellFormed refuses ill-formed terms -/

theorem test_wf_refuses_jp : (Instr.jp 0x1000).wellFormed = false := by decide
theorem test_wf_refuses_call : (Instr.call 0x1000).wellFormed = false := by decide
theorem test_wf_refuses_ldI : (Instr.ldI 0xF000).wellFormed = false := by decide
theorem test_wf_refuses_jpV0 : (Instr.jpV0 0x1000).wellFormed = false := by decide
theorem test_wf_refuses_drw : (Instr.drw 0 1 16).wellFormed = false := by decide
theorem test_wf_accepts_bounds : (Instr.jp 0xFFF).wellFormed = true ∧ (Instr.drw 15 15 15).wellFormed = true := by decide

/-! ### Every row's word, written out nibble by nibble from its encoding -/

theorem test_decode_control :
    decode 0b0000000011101110 = .instr .ret ∧ decode 0b0001001000110100 = .instr (.jp 0x234) ∧
    decode 0b0010101010111100 = .instr (.call 0xABC) ∧ decode 0b0011001100010000 = .instr (.seKk 3 0x10) ∧
    decode 0b0100001100010000 = .instr (.sneKk 3 0x10) ∧ decode 0b0101000100100000 = .instr (.seVy 1 2) ∧
    decode 0b1001000100100000 = .instr (.sneVy 1 2) ∧ decode 0b1011111111111111 = .instr (.jpV0 0xFFF) := by decide

theorem test_decode_alu :
    decode 0b0110111100000111 = .instr (.ldKk 15 0x07) ∧ decode 0b0111001000000010 = .instr (.addKk 2 0x02) ∧
    decode 0b1000000000010000 = .instr (.ldVy 0 1) ∧ decode 0b1000000000010001 = .instr (.orVy 0 1) ∧
    decode 0b1000000000010010 = .instr (.andVy 0 1) ∧ decode 0b1000000000010011 = .instr (.xorVy 0 1) ∧
    decode 0b1000000100100100 = .instr (.addVy 1 2) ∧ decode 0b1000000100100101 = .instr (.subVy 1 2) ∧
    decode 0b1000010011110110 = .instr (.shr 4) ∧ decode 0b1000000100100111 = .instr (.subnVy 1 2) ∧
    decode 0b1000010000001110 = .instr (.shl 4) ∧ decode 0b1100111110000000 = .instr (.rnd 15 0x80) := by decide

theorem test_decode_index :
    decode 0b1010001100000000 = .instr (.ldI 0x300) ∧ decode 0b1111000100011110 = .instr (.addIVx 1) ∧
    decode 0b1111000000101001 = .instr (.ldFVx 0) ∧ decode 0b1111000000110011 = .instr (.ldBVx 0) ∧
    decode 0b1111001001010101 = .instr (.ldMemVx 2) ∧ decode 0b1111001001100101 = .instr (.ldVxMem 2) := by decide

theorem test_decode_display :
    decode 0b0000000011100000 = .instr .cls ∧ decode 0b1101000000010101 = .instr (.drw 0 1 5) := by decide

theorem test_decode_keys_timers :
    decode 0b1110000110011110 = .instr (.skp 1) ∧ decode 0b1110000110100001 = .instr (.sknp 1) ∧
    decode 0b1111001100000111 = .instr (.ldVxDt 3) ∧ decode 0b1111001000001010 = .instr (.ldVxK 2) ∧
    decode 0b1111000000010101 = .instr (.ldDtVx 0) ∧ decode 0b1111000000011000 = .instr (.ldStVx 0) := by decide

/-- FD4 to FD13: words of no row. -/
theorem test_decode_unsupported :
    decode 0x0000 = .unsupported 0x0000 ∧ decode 0x0123 = .unsupported 0x0123 ∧ decode 0x5121 = .unsupported 0x5121 ∧
    decode 0x8008 = .unsupported 0x8008 ∧ decode 0x800F = .unsupported 0x800F ∧ decode 0x9121 = .unsupported 0x9121 ∧
    decode 0xE000 = .unsupported 0xE000 ∧ decode 0xE19F = .unsupported 0xE19F ∧ decode 0xF000 = .unsupported 0xF000 ∧
    decode 0xF1FF = .unsupported 0xF1FF := by decide

/-- The table's numbering (bits 15..12 are m), and the bytes of a word, high byte first. -/
theorem test_decode_table_word_and_bytes :
    decodeTableWord 16 0xA300 = some (.ldI 0x300) ∧
    decodeBytes [0x60, 0x05, 0x12] = some (.instr (.ldKk 0 0x05), [0x12]) := by decide

/-! ### One step per test: the vectors -/

/-- CF1 -/
theorem test_ret : goes (step (at_ 0x00EE ((base.setSP 1).setStack 1 0x0204)))
    (fun t => t.pc == 0x204 && t.SP == 0 && t.stack[1] == 0x0204) = true := by decide
/-- CF2 -/
theorem test_ret_underflow : stops (step (at_ 0x00EE base))
    (.outOfBounds .stackUnderflow 0 0x200 (some 0x00EE)) = true := by decide
/-- CF6 -/
theorem test_jp_top : goes (step (at_ 0x1000 (base.setPc 0xFFE))) (fun t => t.pc == 0) = true := by decide
/-- CF9 -/
theorem test_call_top : goes (step (at_ 0x2ABC ((base.setPc 0xFFE).setSP 3)))
    (fun t => t.SP == 4 && t.stack[4] == 0x1000 && t.pc == 0xABC) = true := by decide
/-- CF8 -/
theorem test_call_overflow : stops (step (at_ 0x2300 (base.setSP 15)))
    (.outOfBounds .stackOverflow 15 0x200 (some 0x2300)) = true := by decide
/-- CF10 -/
theorem test_se_kk : goes (step (at_ 0x3310 (base.setV 3 0x10))) (fun t => t.pc == 0x204) = true := by decide
/-- CF12 -/
theorem test_sne_kk : goes (step (at_ 0x4310 (base.setV 3 0x11))) (fun t => t.pc == 0x204) = true := by decide
/-- CF15 -/
theorem test_se_vy : goes (step (at_ 0x5120 ((base.setV 1 7).setV 2 8))) (fun t => t.pc == 0x202) = true := by decide
/-- CF17 -/
theorem test_sne_vy : goes (step (at_ 0x9120 ((base.setV 1 7).setV 2 8))) (fun t => t.pc == 0x204) = true := by decide
/-- CF20 -/
theorem test_jp_v0_no_wrap : goes (step (at_ 0xBFFF (base.setV 0 0xFF))) (fun t => t.pc == 0x10FE) = true := by decide
/-- CF20, its next cycle; FD2 -/
theorem test_fetch_outside :
    stops (step (base.setPc 0x10FE)) (.outOfBounds .fetch 0x10FE 0x10FE none) = true ∧
    stops (step (base.setPc 0xFFF)) (.outOfBounds .fetch 0x1000 0xFFF none) = true := by decide
/-- FD6 -/
theorem test_unsupported : returns (cycle (at_ 0x5121 base)) (.unsupportedOpcode 0x5121 0x200)
    (fun t => t.pc == 0x202) = true := by decide
/-- CF2 and CF5: the outcomes Fault and Success, with no change. -/
theorem test_cycle_outcomes :
    returns (cycle (at_ 0x00EE base)) (.fault (.outOfBounds .stackUnderflow 0 0x200 (some 0x00EE)))
      (fun t => decide (t = at_ 0x00EE base)) = true ∧
    returns (cycle (at_ 0x1200 base)) .success (fun t => decide (t = at_ 0x1200 base)) = true := by decide

/-- AL1 -/
theorem test_ld_kk : goes (step (at_ 0x6F07 (base.setV 15 1))) (fun t => t.V[15] == 7) = true := by decide
/-- AL2 -/
theorem test_add_kk_wraps : goes (step (at_ 0x7202 (base.setV 2 0xFF)))
    (fun t => t.V[2] == 1 && t.V[15] == 0) = true := by decide
/-- AL6 -/
theorem test_ld_vy : goes (step (at_ 0x8F10 ((base.setV 1 0x42).setV 15 1))) (fun t => t.V[15] == 0x42) = true := by
  decide
/-- AL7 -/
theorem test_or : goes (step (at_ 0x8011 (((base.setV 0 0x0F).setV 1 0xF0).setV 15 0x5A)))
    (fun t => t.V[0] == 0xFF && t.V[15] == 0x5A) = true := by decide
/-- AL8 -/
theorem test_and : goes (step (at_ 0x8012 ((base.setV 0 0x3C).setV 1 0x0F))) (fun t => t.V[0] == 0x0C) = true := by
  decide
/-- AL9 -/
theorem test_xor : goes (step (at_ 0x8013 ((base.setV 0 0x3C).setV 1 0x0F))) (fun t => t.V[0] == 0x33) = true := by
  decide
/-- AL14: the sum overwrites the carry. -/
theorem test_add_vf_is_sum : goes (step (at_ 0x8F14 ((base.setV 15 0xFF).setV 1 1))) (fun t => t.V[15] == 0) = true := by
  decide
/-- AL15: y = 15 reads the old VF. -/
theorem test_add_reads_old_vf : goes (step (at_ 0x81F4 ((base.setV 1 1).setV 15 0xFF)))
    (fun t => t.V[1] == 0 && t.V[15] == 1) = true := by decide
/-- AL17 -/
theorem test_sub_borrow : goes (step (at_ 0x8125 ((base.setV 1 3).setV 2 5)))
    (fun t => t.V[1] == 0xFE && t.V[15] == 0) = true := by decide
/-- AL18 -/
theorem test_sub_equal : goes (step (at_ 0x8125 (((base.setV 1 5).setV 2 5).setV 15 9)))
    (fun t => t.V[1] == 0 && t.V[15] == 0) = true := by decide
/-- AL21 -/
theorem test_subn : goes (step (at_ 0x8127 ((base.setV 1 3).setV 2 5)))
    (fun t => t.V[1] == 2 && t.V[15] == 1) = true := by decide
/-- AL24 -/
theorem test_subn_vf : goes (step (at_ 0x8F17 ((base.setV 15 1).setV 1 0x10))) (fun t => t.V[15] == 0x0F) = true := by
  decide
/-- AL27: y is ignored. -/
theorem test_shr : goes (step (at_ 0x84F6 ((base.setV 4 1).setV 15 0x55)))
    (fun t => t.V[4] == 0 && t.V[15] == 1) = true := by decide
/-- AL29 -/
theorem test_shl : goes (step (at_ 0x840E (base.setV 4 0x81)))
    (fun t => t.V[4] == 2 && t.V[15] == 1) = true := by decide
/-- AL33, the source's generator -/
theorem test_rnd : goes (step (at_ 0xC00F base)) (fun t => t.V[0] == 0x0C && t.rng == 0x3C6EF35F) = true := by
  decide
/-- AL34: rng advances for kk = 0. -/
theorem test_rnd_zero_mask : goes (step (at_ 0xC000 base)) (fun t => t.V[0] == 0 && t.rng == 0x3C6EF35F) = true := by
  decide

/-- IM1 -/
theorem test_ld_i : goes (step (at_ 0xA300 base)) (fun t => t.I == 0x300) = true := by decide
/-- IM3 -/
theorem test_add_i_past_memory : goes (step (at_ 0xF11E ((base.setI 0xFFF).setV 1 1)))
    (fun t => t.I == 0x1000 && t.V[15] == 0) = true := by decide
/-- IM5 -/
theorem test_add_i_overflow : stops (step (at_ 0xF11E ((base.setI 0xFFFF).setV 1 1)))
    (.outOfBounds .indexOverflow 0x10000 0x200 (some 0xF11E)) = true := by decide
/-- IM9 -/
theorem test_ld_f_bad_digit : stops (step (at_ 0xF029 (base.setV 0 0x10)))
    (.outOfBounds .glyphIndex 0x10 0x200 (some 0xF029)) = true := by decide
/-- IM12: the last bytes that fit. -/
theorem test_bcd_top : goes (step (at_ 0xF033 ((base.setI 0xFFD).setV 0 100)))
    (fun t => t.mem.read 0xFFD == 1 && t.mem.read 0xFFE == 0 && t.mem.read 0xFFF == 0) = true := by decide
/-- IM13 -/
theorem test_bcd_outside : stops (step (at_ 0xF033 ((base.setI 0xFFE).setV 0 1)))
    (.outOfBounds .memory 0x1000 0x200 (some 0xF033)) = true := by decide
/-- IM17: VF is stored too. -/
theorem test_store_block : goes (step (at_ 0xFF55 (((base.setI 0xFF0).setV 0 1).setV 15 0xEE)))
    (fun t => t.mem.read 0xFF0 == 1 && t.mem.read 0xFFF == 0xEE && t.I == 0xFF0) = true := by decide
/-- IM16 -/
theorem test_store_outside : stops (step (at_ 0xF155 (((base.setI 0xFFF).setV 0 9).setV 1 8)))
    (.outOfBounds .memory 0x1000 0x200 (some 0xF155)) = true := by decide
/-- IM18 -/
theorem test_load_block : goes (step (at_ 0xF265 (poke 0x300 2 (poke 0x301 5 (poke 0x302 4 (base.setI 0x300))))))
    (fun t => t.V[0] == 2 && t.V[1] == 5 && t.V[2] == 4 && t.I == 0x300) = true := by decide
/-- IM20 -/
theorem test_load_outside : stops (step (at_ 0xF165 (base.setI 0x1000)))
    (.outOfBounds .memory 0x1000 0x200 (some 0xF165)) = true := by decide

/-- DS1 -/
theorem test_cls : goes (step (at_ 0x00E0 (lit 5 5 (lit 63 31 base))))
    (fun t => !t.disp.cell 5 5 && !t.disp.cell 31 63) = true := by decide
/-- DS6: horizontal wrap. -/
theorem test_drw_wraps : goes (step (at_ 0xD011 (poke 0x300 0xFF (((base.setI 0x300).setV 0 0x3E).setV 1 0x1F))))
    (fun t => t.disp.cell 31 62 && t.disp.cell 31 63 && t.disp.cell 31 0 && t.disp.cell 31 5 && !t.disp.cell 31 6 &&
      !t.disp.cell 31 61 && !t.disp.cell 0 0 && t.V[15] == 0) = true := by decide
/-- DS8: the column is VF's old value. -/
theorem test_drw_vf : goes (step (at_ 0xDF01 (poke 0x300 0x80 ((base.setI 0x300).setV 15 0x3C))))
    (fun t => t.disp.cell 0 60 && t.V[15] == 0) = true := by decide

/-- KT1 -/
theorem test_skp : goes (step (at_ 0xE19E ((base.setV 1 5).setKey 5 true))) (fun t => t.pc == 0x204) = true := by
  decide
/-- KT3 -/
theorem test_skp_outside : stops (step (at_ 0xE19E (base.setV 1 0x20)))
    (.outOfBounds .keyIndex 0x20 0x200 (some 0xE19E)) = true := by decide
/-- KT4 -/
theorem test_sknp : goes (step (at_ 0xE1A1 (base.setV 1 5))) (fun t => t.pc == 0x204) = true := by decide
/-- KT7 -/
theorem test_ld_vx_dt : goes (step (at_ 0xF307 (base.setDT 0x3C))) (fun t => t.V[3] == 0x3C && t.DT == 0x3C) = true := by
  decide
/-- KT8 -/
theorem test_ld_vx_k : goes (step (at_ 0xF20A ((base.setKey 9 true).setKey 3 true)))
    (fun t => t.V[2] == 3 && t.pc == 0x202 && t.wait == none) = true := by decide
/-- KT9 -/
theorem test_ld_vx_k_waits : goes (step (at_ 0xF20A base)) (fun t => t.pc == 0x200 && t.wait == some 2) = true := by
  decide
/-- KT11 -/
theorem test_wait_step : goes (step ((base.setWait (some 2)).setKey 11 true))
    (fun t => t.V[2] == 11 && t.wait == none && t.pc == 0x202) = true := by decide
/-- KT13 -/
theorem test_ld_dt : goes (step (at_ 0xF015 (base.setV 0 0x3C))) (fun t => t.DT == 0x3C && t.ST == 0) = true := by
  decide
/-- KT14 -/
theorem test_ld_st : goes (step (at_ 0xF018 (base.setV 0 8))) (fun t => t.ST == 8 && t.DT == 0) = true := by
  decide
/-- KT15 -/
theorem test_tick : ((base.setDT 2).tick).DT = 1 ∧ ((base.setDT 2).tick).ST = 0 := by decide

/-- W8: load the bytes 60 05, run one cycle. -/
theorem test_load_and_run : goes (step (base.loadBytes [0x60, 0x05])) (fun t => t.V[0] == 5 && t.pc == 0x202) = true := by
  decide

/-- `withFetchWord` from reset runs the word it places. -/
theorem test_with_fetch_word : goes (step (State.reset.withFetchWord 16 0x6A05)) (fun t => t.V[10] == 5) = true := by
  decide

/-! ### Witnesses: each statement's hypotheses are met -/

/-- A state of the invariant that is not reset: a call outstanding, RET stored at the top of memory, where pc points. -/
def busy : State := poke 0xFFF 0xEE (((((base.setPc 0xFFE).setSP 1).setStack 1 0x1000).setI 0xFFD).setV 15 15)

theorem reset_inv : base.Inv := ⟨by decide, by decide, by decide, by decide, by decide, by decide⟩

theorem busy_inv : busy.Inv := ⟨by decide, by decide, by decide, by decide, by decide, by decide⟩

/-- The loosest values the invariant admits. -/
theorem bound_inv : (((base.setPc 0x10FE).setSP 15).setStack 15 0x1000).Inv :=
  ⟨by decide, by decide, by decide, by decide, by decide, by decide⟩

theorem waiting_inv : ((base.setPc 0xFFE).setWait (some 15)).Inv :=
  ⟨by decide, by decide, by decide, by decide, by decide, by decide⟩

theorem witness_EncodeThenDecode :
    (Instr.jp 0xFFF).WellFormed ∧ (Instr.drw 15 0 15).WellFormed ∧ (Instr.drw 0 15 0).WellFormed ∧
    Instr.cls.WellFormed := by decide

theorem witness_DecodeThenEncode :
    decode 0x8F36 = .instr (.shr 15) ∧ decode 0x840E = .instr (.shl 4) ∧ decode 0xDFFF = .instr (.drw 15 15 15) := by
  decide

theorem witness_DecodeFollowsOpcodeTable :
    decode 0x1FFF = .instr (.jp 0xFFF) ∧ (Instr.jp 0).row ∈ opcodeRows ∧
    (0x1FFF : Word) &&& (Instr.jp 0).row.mask = (Instr.jp 0).row.bits := by decide

/-- An instruction that completes at 0xFFE, and one that faults. -/
theorem witness_StepRunsDecodedInstruction :
    (let s := at_ 0x2ABC ((base.setPc 0xFFE).setSP 3)
     s.wait = none ∧ s.pc.toNat ≤ 0xFFE ∧
     (0x2ABC : Word).toNat = (s.mem.read s.pc.toNat).toNat * 0x100 + (s.mem.read (s.pc.toNat + 1)).toNat ∧
     decode 0x2ABC = .instr (.call 0xABC) ∧
     goes (exec (.call 0xABC) { s with pc := s.pc + 2 }) (fun _ => true) = true) ∧
    (let s := at_ 0x00EE base
     s.wait = none ∧ s.pc.toNat ≤ 0xFFE ∧
     (0x00EE : Word).toNat = (s.mem.read s.pc.toNat).toNat * 0x100 + (s.mem.read (s.pc.toNat + 1)).toNat ∧
     decode 0x00EE = .instr .ret ∧
     stops (exec .ret { s with pc := s.pc + 2 }) (.raised .stackUnderflow 0) = true) := by
  decide

theorem witness_FetchOutsideMemoryFaults :
    (base.setPc 0xFFF).wait = none ∧ (base.setPc 0xFFF).pc.toNat ≥ 0xFFF ∧ (base.setPc 0x10FE).pc.toNat ≥ 0xFFF := by
  decide

theorem witness_UnsupportedWordIsReportedAndSkipped :
    let s := at_ 0x5121 base
    s.wait = none ∧ s.pc.toNat ≤ 0xFFE ∧
    (0x5121 : Word).toNat = (s.mem.read s.pc.toNat).toNat * 0x100 + (s.mem.read (s.pc.toNat + 1)).toNat ∧
    decode 0x5121 = .unsupported 0x5121 := by decide

/-- SP at its bound; a step that faults and one that does not. -/
theorem witness_FaultReportIsExact :
    (at_ 0x2300 (base.setSP 15)).SP.toNat ≤ 15 ∧
    stops (step (at_ 0x2300 (base.setSP 15))) (.outOfBounds .stackOverflow 15 0x200 (some 0x2300)) = true ∧
    goes (step (at_ 0x2300 (base.setSP 14))) (fun _ => true) = true := by decide

/-- Each row of the table of causes is met in some state, at its boundary, and not one step below it. -/
theorem witness_FaultCausesAreThoseOfTheTable :
    (FaultRow (.call 0x300) (base.setSP 15) .stackOverflow 15 ∧ ∀ c v, ¬ FaultRow (.call 0x300) (base.setSP 14) c v) ∧
    (FaultRow .ret base .stackUnderflow 0 ∧ ∀ c v, ¬ FaultRow .ret (base.setSP 1) c v) ∧
    (FaultRow (.drw 0 1 2) (base.setI 0xFFF) .memory 0x1000 ∧ (∀ c v, ¬ FaultRow (.drw 0 1 1) (base.setI 0xFFF) c v) ∧
      ∀ c v, ¬ FaultRow (.drw 0 1 0) (base.setI 0xFFFF) c v) ∧
    (FaultRow (.ldBVx 0) (base.setI 0xFFE) .memory 0x1000 ∧ ∀ c v, ¬ FaultRow (.ldBVx 0) (base.setI 0xFFD) c v) ∧
    (FaultRow (.ldMemVx 1) (base.setI 0xFFF) .memory 0x1000 ∧ ∀ c v, ¬ FaultRow (.ldMemVx 0) (base.setI 0xFFF) c v) ∧
    (FaultRow (.ldVxMem 1) (base.setI 0x1001) .memory 0x1001 ∧ ∀ c v, ¬ FaultRow (.ldVxMem 15) (base.setI 0xFF0) c v) ∧
    (FaultRow (.skp 1) (base.setV 1 16) .keyIndex 16 ∧ ∀ c v, ¬ FaultRow (.skp 1) (base.setV 1 15) c v) ∧
    (FaultRow (.sknp 1) (base.setV 1 16) .keyIndex 16 ∧ ∀ c v, ¬ FaultRow (.sknp 1) (base.setV 1 15) c v) ∧
    (FaultRow (.ldFVx 1) (base.setV 1 16) .glyphIndex 16 ∧ ∀ c v, ¬ FaultRow (.ldFVx 1) (base.setV 1 15) c v) ∧
    (FaultRow (.addIVx 1) ((base.setI 0xFFFF).setV 1 1) .indexOverflow 0x10000 ∧
      ∀ c v, ¬ FaultRow (.addIVx 1) ((base.setI 0xFFFE).setV 1 1) c v) := by
  refine ⟨⟨?_, ?_⟩, ⟨?_, ?_⟩, ⟨?_, ?_, ?_⟩, ⟨?_, ?_⟩, ⟨?_, ?_⟩, ⟨?_, ?_⟩, ⟨?_, ?_⟩, ⟨?_, ?_⟩, ⟨?_, ?_⟩, ⟨?_, ?_⟩⟩
  all_goals first
    | exact ⟨by decide, rfl, rfl⟩
    | exact ⟨by decide, by decide, rfl, rfl⟩
    | exact fun _ _ h => absurd h.1 (by decide)
    | exact fun _ _ h => absurd h.2.1 (by decide)

/-- A state that faults at every cycle, and operations between the cycles with no RESET and no LOAD. -/
theorem witness_FaultIsSticky :
    stops (step (base.setPc 0xFFF)) (.outOfBounds .fetch 0x1000 0xFFF none) = true ∧
    (∀ seed, HostOp.reset seed ∉ [HostOp.tick, .cycle, .keySet 3 true, .dispRead, .cycle]) ∧
    (∀ bytes, HostOp.load bytes ∉ [HostOp.tick, .cycle, .keySet 3 true, .dispRead, .cycle]) :=
  ⟨by decide, fun _ => by simp, fun _ => by simp⟩

theorem witness_JumpSetsPc : (0xFFF : Nat) < 0x1000 ∧ (0 : Nat) < 0x1000 := by decide

theorem witness_CallPushesReturnAddress :
    base.SP.toNat < 15 ∧ (base.setSP 14).SP.toNat < 15 ∧ (base.setSP 15).SP.toNat = 15 := by decide

theorem witness_ReturnPopsAddress :
    (1 ≤ (base.setSP 1).SP.toNat ∧ (base.setSP 1).SP.toNat ≤ 15) ∧
    (1 ≤ (base.setSP 15).SP.toNat ∧ (base.setSP 15).SP.toNat ≤ 15) ∧ base.SP.toNat = 0 := by decide

theorem witness_StackPointerAboveFifteenStops : (base.setSP 16).SP.toNat > 15 ∧ (base.setSP 255).SP.toNat > 15 := by
  decide

/-- At the highest level; and one level below it, with the entry above left over from a nested call that has returned. -/
theorem witness_CallThenReturnRestoresPc :
    (base.setSP 14).SP.toNat < 15 ∧ (base.setSP 13).SP.toNat < 15 ∧
    goes (exec (.call 0x300) (base.setSP 13)) (fun t =>
      let u := (t.setPc 0x302).setStack 15 0x0777
      decide (u.SP = t.SP) && decide (∀ j : Fin 16, j.val = t.SP.toNat → u.stack[j] = t.stack[j]) &&
        decide (u.stack ≠ t.stack)) = true := by decide

theorem witness_SkipsOnRegisters : (1 ≤ 1 ∧ 1 < 16) ∧ (1 ≤ 15 ∧ 15 < 16) := by decide

theorem witness_JumpV0AddsExactly : (0xFFF : Word).toNat < 0x1000 ∧ (base.setV 0 0xFF).V[0].toNat + 0xFFF = 0x10FE := by
  decide

/-- Both clauses, at the carry's boundary. -/
theorem witness_AddWritesCarry :
    (1 : RegIx) ≠ 15 ∧ ¬ ((base.setV 1 0xFF).V[1].toNat + base.V[2].toNat > 255) ∧
    ((base.setV 1 0xFF).setV 2 1).V[1].toNat + ((base.setV 1 0xFF).setV 2 1).V[2].toNat > 255 := by decide

theorem witness_AddIndex :
    ((base.setI 0xFFFE).setV 1 1).I.toNat + ((base.setI 0xFFFE).setV 1 1).V[1].toNat ≤ 0xFFFF ∧
    ((base.setI 0xFFFF).setV 1 1).I.toNat + ((base.setI 0xFFFF).setV 1 1).V[1].toNat > 0xFFFF := by decide

theorem witness_GlyphAddressOfDigit : (base.setV 0 15).V[0].toNat ≤ 15 ∧ (base.setV 0 16).V[0].toNat > 15 := by decide

theorem witness_StoresDecimalDigits :
    (base.setI 0xFFD).mem.wf = true ∧ (base.setI 0xFFD).I.toNat + 2 ≤ 0xFFF ∧ (base.setI 0xFFE).I.toNat + 2 > 0xFFF := by
  decide

theorem witness_StoresRegisterBlock :
    busy.mem.wf = true ∧ (base.setI 0xFF0).I.toNat + (15 : RegIx).val ≤ 0xFFF ∧
    (base.setI 0xFF1).I.toNat + (15 : RegIx).val > 0xFFF := by decide

theorem witness_LoadsRegisterBlock :
    (base.setI 0xFFF).I.toNat + (0 : RegIx).val ≤ 0xFFF ∧ (base.setI 0x1000).I.toNat + (0 : RegIx).val > 0xFFF := by decide

theorem witness_StoreThenLoadRestoresRegisters :
    base.mem.wf = true ∧
    goes (exec (.ldMemVx 2) ((base.setI 0x300).setV 1 7)) (fun t =>
      let u := t.setV 1 0
      u.mem == t.mem && u.I == ((base.setI 0x300).setV 1 7).I) = true := by decide

/-- Both bytes of the next word stored; the high one alone, by LD [I],V0; a digit as low byte, by LD B,V1. -/
theorem witness_StoredBytesAreFetchedNext :
    base.mem.wf = true ∧
    (let s := ((base.setI 0x201).setPc 0x202).setV 1 0x12
     (1 : RegIx) ≤ 2 ∧ (2 : RegIx) ≤ 2 ∧ goes (exec (.ldMemVx 2) s) (fun t =>
       t.pc.toNat == s.I.toNat + (1 : RegIx).val && t.pc.toNat + 1 == s.I.toNat + (2 : RegIx).val) = true) ∧
    (let s := (base.setI 0x202).setPc 0x202
     (0 : RegIx) ≤ 0 ∧ goes (exec (.ldMemVx 0) s) (fun t => t.pc.toNat == s.I.toNat + (0 : RegIx).val) = true) ∧
    (let s := ((base.setI 0x201).setPc 0x202).setV 1 254
     254 % 10 = 4 ∧ s.V[(1 : RegIx)].toNat = 254 ∧
     goes (exec (.ldBVx 1) s) (fun t => t.pc.toNat + 1 == s.I.toNat + 2) = true) := by decide

theorem witness_CanonicalMemoriesAreEqualData :
    busy.mem.wf = true ∧ (poke 0xFFF 0xEE (poke 0xFFF 0x11 base)).mem.wf = true ∧
    ∀ a, busy.mem.read a = (poke 0xFFF 0xEE (poke 0xFFF 0x11 base)).mem.read a :=
  ⟨by decide, by decide +kernel, fun _ => rfl⟩

theorem witness_ClearsDisplay :
    Instr.ret ≠ .cls ∧ (∀ x y n, Instr.ret ≠ .drw x y n) ∧ goes (exec .ret (base.setSP 1)) (fun _ => true) = true :=
  ⟨by decide, fun _ _ _ => Instr.noConfusion, by decide⟩

/-- No row at any I; fifteen rows and one row at the top of memory. -/
theorem witness_DrawInvertsSpriteCells :
    ((0 : Nat) < 16 ∧ (0 : Nat) = 0) ∧
    ((15 : Nat) < 16 ∧ (base.setI 0xFF1).I.toNat + 15 - 1 ≤ 0xFFF) ∧
    ((1 : Nat) < 16 ∧ (base.setI 0xFFF).I.toNat + 1 - 1 ≤ 0xFFF) := by decide

/-- Each clause of the pixel and collision conditions holds in some state. -/
theorem witness_DrawInvertsSpriteCells_pixels :
    let s := poke 0x300 0x80 (base.setI 0x300)
    SpritePixel s 0 1 1 0 0 ∧ ¬ SpritePixel s 0 1 1 0 1 ∧
    (∃ r c, SpritePixel (lit 0 0 s) 0 1 1 r c ∧ (lit 0 0 s).disp.cell r c = true) ∧
    ¬ ∃ r c, SpritePixel s 0 1 1 r c ∧ s.disp.cell r c = true := by
  refine ⟨⟨0, 0, by decide, by decide, by decide, by decide, by decide⟩, ?_,
    ⟨0, 0, ⟨0, 0, by decide, by decide, by decide, by decide, by decide⟩, by decide +kernel⟩, ?_⟩
  · rintro ⟨h, p, hh, hp, -, hc, hb⟩
    have : h = 0 := by omega
    subst this
    have e : p = 1 := by
      have : (1 : Nat) = (0 + p) % 64 := hc
      omega
    subst e
    exact absurd hb (by decide)
  · rintro ⟨r, c, -, h⟩
    have hb : ∀ (r : Fin 32) (c : Fin 64), Display.blank.cell r c = false := by decide
    exact absurd ((hb r c).symm.trans h) (by decide)

/-- A draw that completes without collision; its own result meets the clause about the second draw. -/
theorem witness_DrawTwiceRestoresDisplay :
    (1 : Nat) < 16 ∧
    goes (exec (.drw 0 1 1) (poke 0x300 0x80 (base.setI 0x300))) (fun t =>
      t.disp.cell 0 0 && t.V[15] == 0 && decide (t.mem = (poke 0x300 0x80 (base.setI 0x300)).mem) && t.I == 0x300 && t.V[0] == 0 &&
        t.V[1] == 0) = true := by decide

theorem witness_KeySkips :
    (15 : KeyIx).val = (base.setV 1 15).V[1].toNat ∧ (0 : KeyIx).val = base.V[1].toNat ∧ (base.setV 1 16).V[1].toNat > 15 := by
  decide

/-- Key 3 the least pressed of two; no key. -/
theorem witness_WaitForKeyBegins :
    (let s := (base.setKey 3 true).setKey 9 true
     s.key[(3 : KeyIx)] = true ∧ ∀ j : KeyIx, j < 3 → s.key[j] = false) ∧ ∀ k : KeyIx, base.key[k] = false := by decide

theorem witness_WaitStepPollsKeys :
    (base.setWait (some 2)).wait = some 2 ∧
    (let s := (base.setWait (some 2)).setKey 15 true
     s.key[(15 : KeyIx)] = true ∧ ∀ j : KeyIx, j < 15 → s.key[j] = false) ∧
    ∀ k : KeyIx, (base.setWait (some 2)).key[k] = false := by decide

theorem witness_WaitHasNetEffectOfOneLoad :
    let s := at_ 0xF20A base
    s.wait = none ∧ s.pc.toNat ≤ 0xFFE ∧ decode (fetchWord s) = .instr (.ldVxK 2) ∧ (∀ k : KeyIx, s.key[k] = false) ∧
    ∃ k : KeyIx, (Vector.replicate 16 true)[k] = true := by decide

theorem witness_TimerLoads :
    goes (exec (.ldStVx 0) base) (fun _ => true) = true ∧ ∀ x, Instr.ldStVx 0 ≠ .ldDtVx x :=
  ⟨by decide, fun _ => Instr.noConfusion⟩

/-- A cycle that moves on. -/
theorem witness_HostInputsWriteOnlyTheirPart : goes (step (at_ 0xE19E (base.setKey 0 true))) (fun _ => true) = true := by
  decide

/-- A cycle that moves, and one that faults, from states with another ST. -/
theorem witness_SoundTimerIsNeverRead :
    goes (step { at_ 0xF015 base with ST := 7 }) (fun t => t.ST == 7) = true ∧
    stops (step { base.setPc 0xFFF with ST := 7 }) (.outOfBounds .fetch 0x1000 0xFFF none) = true := by decide

/-- A register that is no destination, and VF under an instruction that writes no flag. -/
theorem witness_OnlyDestinationsAndFlagsChange :
    (goes (exec (.addVy 1 2) base) (fun _ => true) = true ∧ writesReg 3 (.addVy 1 2) = false ∧ (3 : RegIx) ≠ 15) ∧
    (goes (exec (.addKk 1 2) base) (fun _ => true) = true ∧ writesReg 15 (.addKk 1 2) = false ∧
      writesFlag (.addKk 1 2) = false) := by decide

/-- Each part changes under the instructions named for it. -/
theorem witness_EachRegisterHasItsWriters :
    goes (exec (.ldI 5) base) (fun t => t.I != base.I) = true ∧
    goes (exec (.call 0x300) base) (fun t => t.SP != base.SP && t.stack != base.stack && t.pc != base.pc) = true ∧
    goes (exec (.seVy 1 2) base) (fun t => t.pc != base.pc) = true ∧
    goes (exec (.ldDtVx 0) (base.setV 0 1)) (fun t => t.DT != base.DT) = true ∧
    goes (exec (.ldStVx 0) (base.setV 0 1)) (fun t => t.ST != base.ST) = true ∧
    goes (exec (.rnd 0 0) base) (fun t => t.rng != base.rng) = true ∧
    goes (exec .cls (lit 0 0 base)) (fun t => t.disp.cell 0 0 != (lit 0 0 base).disp.cell 0 0) = true ∧
    goes (exec (.ldVxK 2) base) (fun t => t.wait != base.wait) = true ∧
    goes (exec (.ldMemVx 0) ((base.setI 0x300).setV 0 1)) (fun t => t.mem != base.mem) = true := by decide

/-- A cycle that pushes at the highest level, and one that pops. -/
theorem witness_CycleMovesStackByOne :
    (at_ 0x2300 (base.setSP 14)).SP.toNat ≤ 15 ∧
    goes (step (at_ 0x2300 (base.setSP 14))) (fun t => t.SP == 15) = true ∧
    goes (step (at_ 0x00EE (base.setSP 15))) (fun t => t.SP == 14) = true := by decide

theorem witness_StepKeepsInvariant : busy.Inv ∧ ∃ t, step busy = .next t :=
  ⟨busy_inv, _, rfl⟩

theorem witness_HostOperationsKeepInvariant :
    busy.Inv ∧ ∃ r t, Session.perform ⟨busy, .running⟩ .cycle = .next (r, t) :=
  ⟨busy_inv, _, _, rfl⟩

theorem witness_EveryInterleavingKeepsInvariant : base.Inv ∧ busy.Inv := ⟨reset_inv, busy_inv⟩

theorem witness_LoadCopiesProgram :
    base.mem.wf = true ∧ (List.replicate 3584 (0x12 : Byte)).length ≤ 3584 ∧ (List.replicate 3585 (0x12 : Byte)).length > 3584 ∧
    ([] : List Byte).length ≤ 3584 :=
  ⟨by decide, List.length_replicate.le, by rw [List.length_replicate]; decide, by decide⟩

/-- LOAD then KEYSET and TICK; CYCLE then TICK, a second CYCLE and DISPREAD; RESET then TICK and KEYSET. -/
theorem witness_LoadOutsideProtocolIsRefused :
    (∃ t replies u, Session.perform ⟨base, .fresh⟩ (.load [0x12, 0x00]) = .next (.loadOk, t) ∧
      (∀ seed, HostOp.reset seed ∉ [HostOp.keySet 3 true, .tick]) ∧
      t.performAll [.keySet 3 true, .tick] = .next (replies, u)) ∧
    (∃ reply t replies u, Session.perform ⟨base, .fresh⟩ .cycle = .next (reply, t) ∧
      (∀ seed, HostOp.reset seed ∉ [HostOp.tick, .cycle, .dispRead]) ∧
      t.performAll [.tick, .cycle, .dispRead] = .next (replies, u)) ∧
    (∃ reply t, Session.perform ⟨base, .running⟩ (.reset 7) = .next (reply, t) ∧
      ([0x12, 0x00] : List Byte).length ≤ 3584 ∧
      ∀ op, op ∈ [HostOp.tick, .keySet 3 true] → op = .tick ∨ op = .dispRead ∨ ∃ k b, op = .keySet k b) :=
  ⟨⟨_, _, _, rfl, fun _ => by simp, rfl⟩, ⟨_, _, _, _, rfl, fun _ => by simp, rfl⟩, ⟨_, _, rfl, by decide, by simp⟩⟩

theorem witness_ParkedStateStays :
    let s := at_ 0x1200 base
    s.wait = none ∧ s.pc.toNat ≤ 0xFFE ∧ decode (fetchWord s) = .instr (.jp s.pc) := by decide

end Sys2Proof.Tests
end

/-! ## The family of spec/10_state.md: what a completed instruction writes, and what every cycle keeps -/

namespace Sys2Proof.Machine

/-! ### What a completed instruction does

`Effect` says once, for all 34 instructions, which parts of the state an instruction that completes writes; `exec_effect`
ties it to `exec`. Values that no rule of this family speaks of stay arbitrary. -/

/-- The six skips (R153 to R156, R270, R271). -/
def IsSkip (i : Instr) : Prop :=
  (∃ x kk, i = .seKk x kk ∨ i = .sneKk x kk) ∨ (∃ x y, i = .seVy x y ∨ i = .sneVy x y) ∨
    ∃ x, i = .skp x ∨ i = .sknp x

/-- `Effect s i t`: instruction `i` completes on `s`, the state after the fetch, with the state `t`. -/
inductive Effect (s : State) : Instr → State → Prop
  /-- one register, a destination of the instruction (R20) -/
  | loadReg {i : Instr} (x : RegIx) (b : Byte) (hx : writesReg x i = true) : Effect s i (s.setV x b)
  /-- VF as the flag, then the destination (R21, R193) -/
  | flagged {i : Instr} (x : RegIx) (flag b : Byte) (hx : writesReg x i = true) (hf : writesFlag i = true) :
      Effect s i ((s.setVF flag).setV x b)
  /-- RND (R191) -/
  | random (x : RegIx) (kk b : Byte) : Effect s (.rnd x kk) ((s.setRng (nextRng s.rng)).setV x b)
  /-- LD Vx,[I] (R225) -/
  | loadBlock (x : RegIx) : Effect s (.ldVxMem x) { s with V := loadBlock s.mem (indexBase s) x s.V }
  /-- CLS (R251) -/
  | clear : Effect s .cls (s.setDisp Display.blank)
  /-- DRW (R252) -/
  | draw (x y : RegIx) (n : Nat) (d : Display) (flag : Byte) : Effect s (.drw x y n) ((s.setDisp d).setVF flag)
  /-- RET with a call outstanding (R150) -/
  | ret (hlo : 1 ≤ s.SP.toNat) (hhi : s.SP.toNat ≤ 15) (hSP : (s.SP - 1).toNat = s.SP.toNat - 1) :
      Effect s .ret ((s.setPc s.stack[stackIx s.SP]).setSP (s.SP - 1))
  /-- CALL with fewer than 15 calls outstanding (R152) -/
  | call (nnn : Word) (hSP : (s.SP + 1).toNat = s.SP.toNat + 1) (hhi : s.SP.toNat + 1 ≤ 15)
      (hentry : (stackIx (s.SP + 1)).val = s.SP.toNat + 1) :
      Effect s (.call nnn) (((s.setSP (s.SP + 1)).setStack (stackIx (s.SP + 1)) s.pc).setPc nnn)
  /-- JP addr (R151) -/
  | jump (nnn : Word) : Effect s (.jp nnn) (s.setPc nnn)
  /-- JP V0,addr (R157) -/
  | jumpV0 (nnn : Word) : Effect s (.jpV0 nnn) (s.setPc (v0Target s nnn))
  /-- a skip, taken or not (R126) -/
  | skip {i : Instr} (hi : IsSkip i) {w : Word} (hw : w = s.pc ∨ w = s.pc + 2) : Effect s i (s.setPc w)
  /-- LD I,addr, ADD I,Vx and LD F,Vx (R220, R221, R222) -/
  | index {i : Instr} (hi : (∃ n, i = .ldI n) ∨ (∃ x, i = .addIVx x) ∨ ∃ x, i = .ldFVx x) (w : Word) :
      Effect s i (s.setI w)
  /-- LD DT,Vx (R275) -/
  | delayTimer (x : RegIx) : Effect s (.ldDtVx x) (s.setDT (regOperand s x))
  /-- LD ST,Vx (R276) -/
  | soundTimer (x : RegIx) : Effect s (.ldStVx x) (s.setST (regOperand s x))
  /-- LD B,Vx and LD [I],Vx, whose range lies inside memory (R223, R224) -/
  | store {i : Instr} (hi : (∃ x, i = .ldBVx x) ∨ ∃ x, i = .ldMemVx x) {vs : List Byte}
      (hvs : s.I.toNat + vs.length ≤ 0x1000) : Effect s i (s.setMem (s.mem.writeBytes (indexBase s) vs))
  /-- LD Vx,K with no key pressed (R273) -/
  | startWait (x : RegIx) : Effect s (.ldVxK x) ((s.setWait (some x)).setPc (s.pc - 2))

/-- A range check that is passed leaves what follows it. -/
theorem checkRange_eq_next {σ : Type} {cause : Cause} {a : Word} {k : Nat} {body : Answer σ} {t : σ}
    (h : checkRange cause a k body = .next t) : (k = 0 ∨ a.toNat + k ≤ 0x1000) ∧ body = .next t := by
  rcases checkRange_cases cause a k body with ⟨hk, e⟩ | ⟨_, _, e⟩
  · exact ⟨hk, e.symm.trans h⟩
  · exact absurd (e.symm.trans h) raise_ne_next

/-- An index check that is passed leaves what follows it, for the index. -/
theorem checkIndex_eq_next {cause : Cause} {v : Byte} {body : Fin 16 → Result} {t : State}
    (h : checkIndex cause v body = .next t) : ∃ d, body d = .next t := by
  rcases checkIndex_cases cause v body with ⟨d, _, e⟩ | ⟨_, e⟩
  · exact ⟨d, e.symm.trans h⟩
  · exact absurd (e.symm.trans h) raise_ne_next

theorem Effect.of_skipIf {s : State} {i : Instr} (hi : IsSkip i) (c : Bool) : Effect s i (s.skipIf c) := by
  rcases skipIf_cases s c with ⟨_, e⟩ | ⟨_, e⟩ <;> rw [e]
  · exact .skip hi (.inr rfl)
  · exact .skip hi (.inl rfl)

/-- The inversion lemma of `exec`. -/
theorem exec_effect {i : Instr} {s t : State} (h : exec i s = .next t) : Effect s i t := by
  cases i with
  | ldKk x | addKk x | ldVy x | orVy x | andVy x | xorVy x | ldVxDt x =>
    cases h; exact .loadReg x _ (decide_eq_true rfl)
  | addVy x | subVy x | shr x | subnVy x | shl x =>
    cases h; exact .flagged x _ _ (decide_eq_true rfl) rfl
  | rnd x kk => cases h; exact .random x kk _
  | cls => cases h; exact .clear
  | jp nnn => cases h; exact .jump nnn
  | jpV0 nnn => cases h; exact .jumpV0 nnn
  | ldI nnn => cases h; exact .index (.inl ⟨nnn, rfl⟩) _
  | ldDtVx x => cases h; exact .delayTimer x
  | ldStVx x => cases h; exact .soundTimer x
  | seKk x kk => cases h; exact .of_skipIf (.inl ⟨x, kk, .inl rfl⟩) _
  | sneKk x kk => cases h; exact .of_skipIf (.inl ⟨x, kk, .inr rfl⟩) _
  | seVy x y => cases h; exact .of_skipIf (.inr (.inl ⟨x, y, .inl rfl⟩)) _
  | sneVy x y => cases h; exact .of_skipIf (.inr (.inl ⟨x, y, .inr rfl⟩)) _
  | skp x =>
    simp only [exec, execSkp] at h
    obtain ⟨k, hk⟩ := checkIndex_eq_next h
    cases hk; exact .of_skipIf (.inr (.inr ⟨x, .inl rfl⟩)) _
  | sknp x =>
    simp only [exec, execSknp] at h
    obtain ⟨k, hk⟩ := checkIndex_eq_next h
    cases hk; exact .of_skipIf (.inr (.inr ⟨x, .inr rfl⟩)) _
  | ldFVx x =>
    simp only [exec, execLdFVx] at h
    obtain ⟨d, hd⟩ := checkIndex_eq_next h
    cases hd; exact .index (.inr (.inr ⟨x, rfl⟩)) _
  | addIVx x =>
    change (if indexSum s x > 0xFFFF then _ else _) = _ at h
    split at h
    · exact absurd h raise_ne_next
    · cases h; exact .index (.inr (.inl ⟨x, rfl⟩)) _
  | drw x y n =>
    obtain ⟨_, hd⟩ := checkRange_eq_next h
    cases hd; exact .draw x y n _ _
  | ldVxMem x =>
    obtain ⟨_, hl⟩ := checkRange_eq_next h
    cases hl; exact .loadBlock x
  | ldBVx x =>
    obtain ⟨hr, hm⟩ := checkRange_eq_next h
    cases hm; exact .store (.inl ⟨x, rfl⟩) (hr.resolve_left (by decide))
  | ldMemVx x =>
    obtain ⟨hr, hm⟩ := checkRange_eq_next h
    cases hm; exact .store (.inr ⟨x, rfl⟩) (registerBlock_length s x ▸ hr.resolve_left (Nat.succ_ne_zero _))
  | ldVxK x =>
    change execLdVxK x s = _ at h
    unfold execLdVxK at h
    split at h
    · cases h; exact .loadReg x _ (decide_eq_true rfl)
    · cases h; exact .startWait x
  | ret =>
    change execRet s = _ at h
    rcases execRet_cases s with ⟨_, e⟩ | ⟨hlo, hhi, hSP, e⟩ | ⟨_, e⟩ <;> rw [e] at h
    · exact absurd h raise_ne_next
    · cases h; exact .ret hlo hhi hSP
    · exact absurd h raise_ne_next
  | call nnn =>
    change execCall nnn s = _ at h
    rcases execCall_cases nnn s with ⟨hhi, hSP, e⟩ | ⟨_, e⟩ <;> rw [e] at h
    · have hentry := stackIx_val (sp := s.SP + 1) (by omega)
      cases h; exact .call nnn hSP (by omega) (hentry.trans hSP)
    · exact absurd h raise_ne_next

/-! ### Registers and the other parts: who writes them -/

/-- Settles O49: an effect that writes registers at all writes destinations and, in the flag instructions, VF. -/
theorem onlyDestinationsAndFlagsChange : Obligations.OnlyDestinationsAndFlagsChange := by
  intro i s t r h hr hflag
  cases exec_effect h with
  | loadReg x b hx =>
    have hne : r ≠ x := fun e => Bool.noConfusion (hx.symm.trans (e ▸ hr))
    simp only [setV_read, if_neg hne]
  | flagged x flag b hx hf =>
    have hne : r ≠ x := fun e => Bool.noConfusion (hx.symm.trans (e ▸ hr))
    have hvf : r ≠ vf := fun e => Bool.noConfusion (hf.symm.trans (hflag e))
    simp only [setV_V, setVF_V, V_set, if_neg hne, if_neg hvf]
  | random x kk b =>
    have hne : r ≠ x := of_decide_eq_false hr
    simp only [setV_V, setRng_V, V_set, if_neg hne]
  | loadBlock x =>
    have hgt : ¬ r ≤ x := of_decide_eq_false hr
    simp only [loadBlock_read, if_neg hgt]
  | draw x y n d flag =>
    have hvf : r ≠ vf := fun e => Bool.noConfusion (hflag e)
    simp only [setVF_V, setDisp_V, V_set, if_neg hvf]
  | _ => rfl

/-- Settles O50: read off the effect of the instruction, part by part. -/
theorem eachRegisterHasItsWriters : Obligations.EachRegisterHasItsWriters := by
  intro i s t h
  cases exec_effect h with
  | skip hi _ => rcases hi with ⟨x, kk, rfl | rfl⟩ | ⟨x, y, rfl | rfl⟩ | ⟨x, rfl | rfl⟩ <;> simp
  | index hi w => simp [hi]
  | store hi _ => simp [hi]
  | _ => simp

/-! ### The call stack -/

theorem waitStep_stack (x : RegIx) (s : State) : (waitStep x s).stack = s.stack := by
  unfold waitStep; split <;> rfl

theorem waitStep_SP (x : RegIx) (s : State) : (waitStep x s).SP = s.SP := by
  unfold waitStep; split <;> rfl

/-- CALL alone writes an entry, the one above SP, which is not entry 0; CALL and RET alone move SP, by one. -/
theorem Effect.stack_by_one {s t : State} {i : Instr} (e : Effect s i t) :
    t.stack[(0 : Fin 16)] = s.stack[(0 : Fin 16)] ∧
    (∀ j : Fin 16, j.val ≠ s.SP.toNat + 1 → t.stack[j] = s.stack[j]) ∧
    (t.SP.toNat = s.SP.toNat ∨ t.SP.toNat = s.SP.toNat + 1 ∨ t.SP.toNat + 1 = s.SP.toNat) := by
  cases e with
  | ret hlo _ hSP => exact ⟨rfl, fun _ _ => rfl, .inr (.inr (by simp only [setSP_SP]; omega))⟩
  | call nnn hSP _ hentry =>
    have hkeep (j : Fin 16) (hj : j.val ≠ s.SP.toNat + 1) : (s.stack.set (stackIx (s.SP + 1)) s.pc)[j] = s.stack[j] := by
      have hne : j ≠ stackIx (s.SP + 1) := fun e => hj (e ▸ hentry)
      rw [stack_set, if_neg hne]
    exact ⟨hkeep 0 (Nat.succ_ne_zero _).symm, hkeep, .inr (.inl hSP)⟩
  | _ => exact ⟨rfl, fun _ _ => rfl, .inl rfl⟩

/-- Settles O51: neither the wait step nor the fetch touches the call stack, and an instruction moves it by one. -/
theorem cycleMovesStackByOne : Obligations.CycleMovesStackByOne := by
  intro s t _ h
  rcases step_next_cases h with ⟨x, _, rfl⟩ | ⟨_, _, _, rfl⟩ | ⟨i, _, _, _, hexec⟩
  · rw [waitStep_stack, waitStep_SP]
    exact ⟨rfl, fun _ _ => rfl, .inl rfl⟩
  · exact ⟨rfl, fun _ _ => rfl, .inl rfl⟩
  · exact (exec_effect hexec).stack_by_one

/-! ### The invariant: one rule per update it speaks of -/

/-- The invariant reads memory, pc, SP, the call stack and `wait` only. -/
theorem State.Inv.of_eq {s t : State} (hs : s.Inv) (hmem : t.mem = s.mem) (hpc : t.pc = s.pc) (hSP : t.SP = s.SP)
    (hstack : t.stack = s.stack) (hwait : t.wait = s.wait) : t.Inv :=
  ⟨hmem ▸ hs.memory, hpc ▸ hs.pcBound, hSP ▸ hs.spBound, hstack ▸ hs.returnBound, hstack ▸ hs.entryZero,
    hwait ▸ hpc ▸ hs.waitPc⟩

theorem State.Inv.setMem {s : State} (hs : s.Inv) {m : Memory} (hm : m.wf = true) : (s.setMem m).Inv :=
  ⟨hm, hs.pcBound, hs.spBound, hs.returnBound, hs.entryZero, hs.waitPc⟩

theorem State.Inv.setPc {s : State} (hs : s.Inv) {w : Word} (hw : w.toNat ≤ 0x10FE)
    (hwait : s.wait ≠ none → w.toNat ≤ 0xFFE) : (s.setPc w).Inv :=
  ⟨hs.memory, hw, hs.spBound, hs.returnBound, hs.entryZero, hwait⟩

theorem State.Inv.setSP {s : State} (hs : s.Inv) {b : Byte} (hb : b.toNat ≤ 15) : (s.setSP b).Inv :=
  ⟨hs.memory, hs.pcBound, hb, hs.returnBound, hs.entryZero, hs.waitPc⟩

theorem State.Inv.setStack {s : State} (hs : s.Inv) {j : Fin 16} {w : Word} (hj : j ≠ 0) (hw : w.toNat ≤ 0x1000) :
    (s.setStack j w).Inv where
  memory := hs.memory
  pcBound := hs.pcBound
  spBound := hs.spBound
  returnBound k := by
    rw [setStack_stack, stack_set]
    split
    · exact hw
    · exact hs.returnBound k
  entryZero := by rw [setStack_stack, stack_set, if_neg hj.symm]; exact hs.entryZero
  waitPc := hs.waitPc

theorem State.Inv.setWait {s : State} (hs : s.Inv) {w : Option RegIx} (hw : w ≠ none → s.pc.toNat ≤ 0xFFE) :
    (s.setWait w).Inv :=
  ⟨hs.memory, hs.pcBound, hs.spBound, hs.returnBound, hs.entryZero, hw⟩

theorem State.resetWith_inv (seed : RngWord) : (State.resetWith seed).Inv where
  memory := rfl
  pcBound := by simp [State.resetWith]
  spBound := by simp [State.resetWith]
  returnBound j := by simp [State.resetWith]
  entryZero := by simp [State.resetWith]
  waitPc h := absurd rfl h

/-! ### Every cycle keeps the invariant -/

/-- Inside memory pc moves past a word without a wrap (R33). -/
theorem add_two_toNat {w : Word} (h : w.toNat ≤ 0x1000) : (w + 2).toNat = w.toNat + 2 := by bv_omega

theorem afterFetch_inv {s : State} (hs : s.Inv) (hw : s.wait = none) (hp : s.pc.toNat < 0xFFF) :
    (afterFetch s).Inv :=
  hs.setPc (by rw [add_two_toNat (by omega)]; omega) fun h => absurd hw h

theorem waitStep_inv {s : State} {x : RegIx} (hs : s.Inv) (hw : s.wait = some x) : (waitStep x s).Inv := by
  have hp : s.pc.toNat ≤ 0xFFE := hs.waitPc (by simp [hw])
  unfold waitStep
  split
  case h_1 k _ =>
    have hV : (s.setV x (keyByte k)).Inv := hs.of_eq rfl rfl rfl rfl rfl
    exact (hV.setWait fun h => absurd rfl h).setPc (by rw [add_two_toNat (by omega)]; omega) fun h => absurd rfl h
  case h_2 => exact hs

/-- The highest target of `JP V0,addr` is 0x10FE (R33). -/
theorem v0Target_le {s : State} {nnn : Word} (h : nnn.toNat < 0x1000) : (v0Target s nnn).toNat ≤ 0x10FE := by
  have := s.V[(0 : RegIx)].isLt
  rw [v0Target_toNat h]; omega

/-- An instruction that completes keeps the invariant, when it runs after a fetch: pc is then the address of the
instruction plus 2, and the core does not wait. -/
theorem Effect.inv {s t : State} {i : Instr} (e : Effect s i t) (hs : s.Inv) (hi : i.WellFormed) (hw : s.wait = none)
    (hlo : 2 ≤ s.pc.toNat) (hhi : s.pc.toNat ≤ 0x1000) : t.Inv := by
  have hnowait : ∀ {P : Prop}, s.wait ≠ none → P := fun h => absurd hw h
  cases e with
  | ret hSPlo hSPhi hSP =>
    have hret := hs.returnBound (stackIx s.SP)
    exact (hs.setPc (by omega) hnowait).setSP (by omega)
  | call nnn hSP hSPhi hentry =>
    have hn : nnn.toNat < 0x1000 := of_decide_eq_true hi
    have hne : stackIx (s.SP + 1) ≠ 0 := fun e => Nat.succ_ne_zero _ (hentry.symm.trans (congrArg Fin.val e))
    exact ((hs.setSP (by omega)).setStack hne hhi).setPc (by omega) hnowait
  | jump nnn =>
    have hn : nnn.toNat < 0x1000 := of_decide_eq_true hi
    exact hs.setPc (by omega) hnowait
  | jumpV0 nnn => exact hs.setPc (v0Target_le (of_decide_eq_true hi)) hnowait
  | skip _ hpc =>
    refine hs.setPc ?_ hnowait
    rcases hpc with rfl | rfl
    · omega
    · rw [add_two_toNat hhi]; omega
  | store _ hvs => exact hs.setMem (Memory.writeBytes_wf hs.memory hvs)
  | startWait x =>
    have hpc : (s.pc - 2).toNat ≤ 0xFFE := by bv_omega
    exact (hs.setPc (w := s.pc - 2) (by omega) hnowait).setWait fun _ => hpc
  | _ => exact hs.of_eq rfl rfl rfl rfl rfl

/-- Settles O52: the wait step, a skipped unsupported word and every instruction keep the invariant. -/
theorem stepKeepsInvariant : Obligations.StepKeepsInvariant := by
  intro s t hs h
  rcases step_next_cases h with ⟨x, hw, rfl⟩ | ⟨hw, hp, _, rfl⟩ | ⟨i, hw, hp, hd, hexec⟩
  · exact waitStep_inv hs hw
  · exact afterFetch_inv hs hw hp
  · have hpc : (afterFetch s).pc.toNat = s.pc.toNat + 2 := add_two_toNat (by omega)
    exact (exec_effect hexec).inv (afterFetch_inv hs hw hp) (decode_wellFormed hd) hw (by omega) (by omega)

/-! ### Every host operation keeps the invariant -/

/-- The state CYCLE leaves is the step's, or after a fault the one it began with (R127, R300). -/
theorem cycle_next_cases {s t : State} {o : CycleOutcome} (h : cycle s = .next (o, t)) :
    step s = .next t ∨ ((∃ f, step s = .fault f) ∧ t = s) := by
  unfold cycle at h
  unfold step
  cases hr : runCycle s with
  | next p => rw [hr] at h; cases h; exact .inl rfl
  | fault f => rw [hr] at h; cases h; exact .inr ⟨⟨f, rfl⟩, rfl⟩
  | refused r => rw [hr] at h; cases h

theorem cycle_inv {s t : State} {o : CycleOutcome} (hs : s.Inv) (h : cycle s = .next (o, t)) : t.Inv := by
  rcases cycle_next_cases h with hstep | ⟨_, rfl⟩
  · exact stepKeepsInvariant s t hs hstep
  · exact hs

theorem loadBytes_inv {s : State} {bytes : List Byte} (hs : s.Inv) (hb : programTooLarge bytes = false) :
    (s.loadBytes bytes).Inv := by
  have hlen : ¬ bytes.length > 3584 := of_decide_eq_false hb
  exact hs.setMem (Memory.writeBytes_wf hs.memory (by simp only [Config.progBase]; omega))

theorem Session.load_inv {s t : Session} {bytes : List Byte} {reply : HostReply} (hs : s.core.Inv)
    (h : s.load bytes = .next (reply, t)) : t.core.Inv := by
  unfold Session.load at h
  split at h
  · split at h
    · cases h; exact hs
    · cases h; exact loadBytes_inv hs (eq_false_of_ne_true ‹_›)
  · cases h
  · cases h

/-- Settles O54: RESET sets the state up, LOAD stores inside memory, CYCLE is the step, TICK and KEYSET write parts the
invariant does not read, DISPREAD writes nothing. -/
theorem hostOperationsKeepInvariant : Obligations.HostOperationsKeepInvariant := by
  intro s t op reply hs h
  cases op with
  | reset seed => cases h; exact State.resetWith_inv seed
  | load bytes => exact Session.load_inv hs h
  | cycle =>
    simp only [Session.perform] at h
    split at h
    · cases h; exact cycle_inv hs ‹_›
    · cases h
    · cases h
  | tick | keySet => cases h; exact hs.of_eq rfl rfl rfl rfl rfl
  | dispRead => cases h; exact hs

/-! ### The sound timer

Two answers agree but for ST when they are equal once ST is erased from the state they carry. -/

/-- The answer with ST forgotten. -/
def eraseST : Result → Result
  | .next t => .next (t.setST 0)
  | .fault f => .fault f
  | .refused r => .refused r

theorem eraseST_eq_next {r : Result} {t : State} (h : eraseST r = .next t) : ∃ u, r = .next u ∧ u.setST 0 = t := by
  cases r with
  | next u => cases h; exact ⟨u, rfl, rfl⟩
  | fault f => cases h
  | refused e => cases h

theorem eraseST_eq_fault {r : Result} {f : Fault} (h : eraseST r = .fault f) : r = .fault f := by
  cases r with
  | next u => cases h
  | fault g => exact h
  | refused e => cases h

theorem eraseST_ite_congr {c : Prop} [Decidable c] {e p q : Result} (h : eraseST p = eraseST q) :
    eraseST (if c then e else p) = eraseST (if c then e else q) := by
  split
  · rfl
  · exact h

theorem eraseST_checkRange_congr {cause : Cause} {a : Word} {k : Nat} {p q : Result} (h : eraseST p = eraseST q) :
    eraseST (checkRange cause a k p) = eraseST (checkRange cause a k q) :=
  eraseST_ite_congr h

theorem eraseST_checkIndex_congr {cause : Cause} {v : Byte} {p q : Fin 16 → Result}
    (h : ∀ d, eraseST (p d) = eraseST (q d)) : eraseST (checkIndex cause v p) = eraseST (checkIndex cause v q) :=
  eraseST_ite_congr (h _)

theorem eraseST_reportFault (ipc : Word) (w : Option Word) (r : Result) :
    eraseST (reportFault ipc w r) = reportFault ipc w (eraseST r) := by
  cases r with
  | next t => rfl
  | fault f => cases f <;> rfl
  | refused e => rfl

theorem eraseST_skipIf (s : State) (b : Byte) (c : Bool) :
    eraseST (.next ((s.setST b).skipIf c)) = eraseST (.next (s.skipIf c)) := by
  cases c <;> rfl

/-- No instruction reads ST: a branch's condition and every value written come from the other parts. -/
theorem exec_eraseST (i : Instr) (s : State) (b : Byte) : eraseST (exec i (s.setST b)) = eraseST (exec i s) := by
  cases i with
  | seKk | sneKk | seVy | sneVy => exact eraseST_skipIf s b _
  | skp | sknp => exact eraseST_checkIndex_congr fun k => eraseST_skipIf s b _
  | ldFVx =>
    simp only [exec, execLdFVx]
    exact eraseST_checkIndex_congr fun _ => rfl
  | drw | ldBVx | ldMemVx | ldVxMem => exact eraseST_checkRange_congr rfl
  | ret => exact eraseST_ite_congr (eraseST_ite_congr rfl)
  | call | addIVx => exact eraseST_ite_congr rfl
  | ldVxK x => simp only [exec, execLdVxK, setST_key]; split <;> rfl
  | _ => rfl

theorem waitStep_eraseST (x : RegIx) (s : State) (b : Byte) :
    (waitStep x (s.setST b)).setST 0 = (waitStep x s).setST 0 := by
  simp only [waitStep, setST_key]; split <;> rfl

theorem step_eraseST (s : State) (b : Byte) : eraseST (step (s.setST b)) = eraseST (step s) := by
  rcases hw : s.wait with _ | x
  · have hw' : (s.setST b).wait = none := hw
    by_cases hp : s.pc.toNat < 0xFFF
    · cases hd : decode (fetchWord s) with
      | unsupported u => rw [step_unsupported hw hp hd, step_unsupported hw' hp hd]; rfl
      | instr i =>
        rw [step_instr hw hp hd, step_instr hw' hp hd, eraseST_reportFault, eraseST_reportFault]
        exact congrArg (reportFault s.pc (some (fetchWord s))) (exec_eraseST i (afterFetch s) b)
    · rw [step_fetch_fault hw (by omega), step_fetch_fault hw' (by simpa using hp)]; rfl
  · have hw' : (s.setST b).wait = some x := hw
    rw [step_waiting hw, step_waiting hw']
    exact congrArg Host.Outcome.next (waitStep_eraseST x s b)

theorem frame_setST (s : State) (b c : Byte) : FrameExcept (fun p => p = .st) (s.setST b) (s.setST c) := by
  intro p hp
  cases p with
  | st => exact absurd rfl hp
  | _ => rfl

/-- States equal once ST is erased agree on every other part. -/
theorem frame_of_eraseST {t u : State} (h : u.setST 0 = t.setST 0) : FrameExcept (fun p => p = .st) t u :=
  (frame_setST t t.ST 0).trans (h ▸ frame_setST u 0 u.ST)

/-- Settles O46: the two steps give the same answer once ST is erased. -/
theorem soundTimerIsNeverRead : Obligations.SoundTimerIsNeverRead := by
  intro s b
  have hst : eraseST (step { s with ST := b }) = eraseST (step s) := step_eraseST s b
  constructor
  · intro t ht
    rw [ht] at hst
    obtain ⟨u, hu, hut⟩ := eraseST_eq_next hst
    exact ⟨u, hu, frame_of_eraseST hut⟩
  · intro f hf
    rw [hf] at hst
    exact eraseST_eq_fault hst

end Sys2Proof.Machine

/-! ## The family of spec/20_memory.md: fetch reads what was stored, and the canonical form of memory -/

namespace Sys2Proof.Machine

/-! ### Canonical memories are determined by their reads

A listed cell is one whose byte differs from what RESET left, so the reads show which addresses are listed, and with which
bytes. -/

/-- The first listed cell can be told from its address's reset content. -/
theorem Memory.read_head_ne_resetByte {lo a : Nat} {v : Byte} {m : Memory} (h : Memory.wfFrom lo ((a, v) :: m) = true) :
    Memory.read ((a, v) :: m) a ≠ resetByte a := by
  obtain ⟨_, _, hne, _⟩ := Memory.wfFrom_cons.1 h
  simpa [Memory.read] using hne

/-- Without its first listed cell memory reads as RESET left it there, and as before elsewhere. -/
theorem Memory.read_tail {lo a : Nat} {v : Byte} {m : Memory} (h : Memory.wfFrom lo ((a, v) :: m) = true) (b : Nat) :
    m.read b = if b = a then resetByte a else Memory.read ((a, v) :: m) b := by
  obtain ⟨_, _, _, hm⟩ := Memory.wfFrom_cons.1 h
  split
  case isTrue hb => rw [hb, Memory.read_below hm (Nat.lt_succ_self a)]
  case isFalse hb => exact (if_neg (Ne.symm hb)).symm

/-- Of two memories that read alike, neither lists an address below the other's first. -/
theorem Memory.head_le_head {lo lo' a b : Nat} {v u : Byte} {m n : Memory}
    (hm : Memory.wfFrom lo ((a, v) :: m) = true) (hn : Memory.wfFrom lo' ((b, u) :: n) = true)
    (h : ∀ c, Memory.read ((a, v) :: m) c = Memory.read ((b, u) :: n) c) : b ≤ a := by
  by_contra hab
  have hnb : Memory.wfFrom b ((b, u) :: n) = true :=
    Memory.wfFrom_cons.2 ⟨le_rfl, (Memory.wfFrom_cons.1 hn).2⟩
  exact Memory.read_head_ne_resetByte hm ((h a).trans (Memory.read_below hnb (Nat.lt_of_not_le hab)))

theorem Memory.eq_of_read_eq {lo lo' : Nat} {m n : Memory} (hm : Memory.wfFrom lo m = true)
    (hn : Memory.wfFrom lo' n = true) (h : ∀ a, m.read a = n.read a) : m = n := by
  induction m generalizing n lo lo' with
  | nil =>
    cases n with
    | nil => rfl
    | cons d n => exact absurd (h d.1).symm (Memory.read_head_ne_resetByte hn)
  | cons c m ih =>
    cases n with
    | nil => exact absurd (h c.1) (Memory.read_head_ne_resetByte hm)
    | cons d n =>
      obtain ⟨a, v⟩ := c
      obtain ⟨b, u⟩ := d
      obtain rfl : a = b :=
        le_antisymm (Memory.head_le_head hn hm fun c => (h c).symm) (Memory.head_le_head hm hn h)
      obtain rfl : v = u := by simpa [Memory.read] using h a
      have htail (c : Nat) : Memory.read m c = Memory.read n c := by
        rw [Memory.read_tail hm, Memory.read_tail hn, h c]
      obtain ⟨_, _, _, hm'⟩ := Memory.wfFrom_cons.1 hm
      obtain ⟨_, _, _, hn'⟩ := Memory.wfFrom_cons.1 hn
      rw [ih hm' hn' htail]

/-- Settles O36, by induction on the listed cells. -/
theorem canonicalMemoriesAreEqualData : Obligations.CanonicalMemoriesAreEqualData := fun _ _ => Memory.eq_of_read_eq

/-! ### What the two storing instructions leave in memory (R67, R223, R224) -/

/-- A checked store that completes leaves each of its bytes at its address. -/
theorem read_of_checked_store {s t : State} {vs : List Byte} {k : Nat} (hwf : s.mem.wf = true)
    (h : checkRange .memory s.I vs.length (.next (s.setMem (s.mem.writeBytes (indexBase s) vs))) = .next t)
    (hk : k < vs.length) : t.mem.read (s.I.toNat + k) = vs.getD k 0 := by
  obtain ⟨hrange, hstore⟩ := checkRange_eq_next h
  cases hstore
  exact Memory.read_writeBytes_same hwf (hrange.resolve_left (Nat.ne_zero_of_lt hk)) hk

theorem exec_ldMemVx_read {s t : State} {x r : RegIx} (hwf : s.mem.wf = true) (h : exec (.ldMemVx x) s = .next t)
    (hr : r ≤ x) : t.mem.read (s.I.toNat + r.val) = s.V[r] := by
  have hlen := registerBlock_length s x
  have hr' : r.val ≤ x.val := hr
  rw [read_of_checked_store (vs := registerBlock s x) hwf (by rw [hlen]; exact h) (by omega)]
  exact registerBlock_getD s x r hr

theorem exec_ldBVx_read {s t : State} {x : RegIx} {k : Nat} (hwf : s.mem.wf = true) (h : exec (.ldBVx x) s = .next t)
    (hk : k < 3) : t.mem.read (s.I.toNat + k) = (decimalDigits s.V[x]).getD k 0 :=
  read_of_checked_store hwf h hk

/-- Hundreds, tens and ones of a byte each fit a byte (R223). -/
theorem decimalDigits_toNat (b : Byte) :
    ((decimalDigits b).getD 0 0).toNat = b.toNat / 100 ∧ ((decimalDigits b).getD 1 0).toNat = b.toNat / 10 % 10 ∧
      ((decimalDigits b).getD 2 0).toNat = b.toNat % 10 := by
  have := b.isLt
  simp only [decimalDigits, List.getD_cons_zero, List.getD_cons_succ, BitVec.toNat_ofNat]
  omega

/-! ### Fetch reads the current memory (R66, R72; D17) -/

theorem fetchWord_high (s : State) : (fetchWord s).toNat / 0x100 = (s.mem.read s.pc.toNat).toNat := by
  have := (s.mem.read (s.pc.toNat + 1)).isLt
  rw [fetchWord, concat8_toNat]; omega

theorem fetchWord_low (s : State) : (fetchWord s).toNat % 0x100 = (s.mem.read (s.pc.toNat + 1)).toNat := by
  have := (s.mem.read (s.pc.toNat + 1)).isLt
  rw [fetchWord, concat8_toNat]; omega

/-- A byte of memory is a byte of the fetched word: the high one at pc, the low one behind it. -/
theorem fetchWord_byte {s : State} {a v : Nat} (h : (s.mem.read a).toNat = v) :
    (s.pc.toNat = a → (fetchWord s).toNat / 0x100 = v) ∧ (s.pc.toNat + 1 = a → (fetchWord s).toNat % 0x100 = v) := by
  constructor
  · rintro rfl; exact (fetchWord_high s).trans h
  · rintro rfl; exact (fetchWord_low s).trans h

/-- Settles O35: fetch reads memory as the store left it. -/
theorem storedBytesAreFetchedNext : Obligations.StoredBytesAreFetchedNext := by
  intro x s t hwf
  constructor
  · intro h r hr
    exact fetchWord_byte (congrArg BitVec.toNat (exec_ldMemVx_read hwf h hr))
  · intro h k digit hdigit
    obtain ⟨hundreds, tens, ones⟩ := decimalDigits_toNat s.V[x]
    apply fetchWord_byte
    rcases hdigit with ⟨rfl, rfl⟩ | ⟨rfl, rfl⟩ | ⟨rfl, rfl⟩
    · rw [exec_ldBVx_read hwf h (by decide), hundreds]
    · rw [exec_ldBVx_read hwf h (by decide), tens]
    · rw [exec_ldBVx_read hwf h (by decide), ones]

end Sys2Proof.Machine

/-! ## The family of spec/30_encoding.md: the decoder is the opcode table, and encoding is its inverse

All rests on one characterisation of the decoder, `decode_eq_instr_iff`: a word decodes to an instruction exactly when it
matches that instruction's row and the operands are the word's fields. -/

namespace Sys2Proof

/-! ### Every word is its fields, in each layout (R91) -/

theorem fieldM_lt (w : Word) : fieldM w < 16 := by
  have := w.isLt
  rw [fieldM]; omega

theorem fieldKk_eq_iff {w : Word} {kk : Byte} :
    fieldKk w = kk ↔ (fieldY w).val = kk.toNat / 0x10 ∧ fieldN w = kk.toNat % 0x10 := by
  rw [← BitVec.toNat_inj, fieldKk_toNat, fieldY_val, fieldN]; omega

theorem wordNnn_fieldNnn {w : Word} {m : Nat} (hm : fieldM w = m) : wordNnn m (fieldNnn w) = w := by
  subst hm
  apply BitVec.eq_of_toNat_eq
  rw [wordNnn_toNat (fieldM_lt w), fieldNnn_toNat, fieldM]; omega

theorem wordXKk_fieldX {w : Word} {m : Nat} {kk : Byte} (hm : fieldM w = m) (hk : fieldKk w = kk) :
    wordXKk m (fieldX w) kk = w := by
  subst hm hk
  apply BitVec.eq_of_toNat_eq
  rw [wordXKk_toNat (fieldM_lt w), fieldX_val, fieldKk_toNat, fieldM]; omega

theorem wordXYN_fieldX_fieldY {w : Word} {m n : Nat} (hm : fieldM w = m) (hn : fieldN w = n) :
    wordXYN m (fieldX w) (fieldY w) n = w := by
  subst hm hn
  apply BitVec.eq_of_toNat_eq
  rw [wordXYN_toNat (fieldM_lt w), fieldX_val, fieldY_val, fieldM, fieldN]; omega

theorem and_FF0F_toNat (w : Word) : (w &&& 0xFF0F).toNat = w.toNat / 0x100 * 0x100 + w.toNat % 0x10 := by
  have hsplit := and_or_toNat w 0xFF00#16 0x00FF#16 rfl
  rw [show 0xFF00#16 ||| 0x00FF#16 = BitVec.allOnes 16 from rfl, BitVec.and_allOnes, and_00FF_toNat] at hsplit
  rw [show (0xFF0F : Word) = 0xFF00#16 ||| 0x000F#16 from rfl, and_or_toNat _ _ _ rfl, and_000F_toNat]
  omega

/-- Writing `y` as 0 masks it out of the word. -/
theorem wordXYN_fieldX_zero {w : Word} {m n : Nat} (hm : fieldM w = m) (hn : fieldN w = n) :
    wordXYN m (fieldX w) 0 n = w &&& 0xFF0F := by
  subst hm hn
  apply BitVec.eq_of_toNat_eq
  rw [wordXYN_toNat (fieldM_lt w), and_FF0F_toNat, fieldX_val, fieldM, fieldN, Fin.val_zero]; omega

/-! ### The rows of R94 in terms of the fields -/

/-- The word belongs to the row (R94). -/
def OpcodeRow.Matches (r : OpcodeRow) (w : Word) : Prop := w &&& r.mask = r.bits

namespace OpcodeRow

variable {name : String} {w bits : Word}

theorem matches_FFFF_iff : Matches ⟨name, bits, 0xFFFF⟩ w ↔ w = bits := by
  rw [Matches, show (0xFFFF : Word) = BitVec.allOnes 16 from rfl, BitVec.and_allOnes]

theorem matches_F000_iff (hb : bits &&& 0xF000 = bits) : Matches ⟨name, bits, 0xF000⟩ w ↔ fieldM w = fieldM bits := by
  rw [Matches, ← hb, ← BitVec.toNat_inj, and_F000_toNat, and_F000_toNat, hb, fieldM, fieldM]; omega

theorem matches_F00F_iff (hb : bits &&& 0xF00F = bits) :
    Matches ⟨name, bits, 0xF00F⟩ w ↔ fieldM w = fieldM bits ∧ fieldN w = fieldN bits := by
  rw [Matches, ← hb, ← BitVec.toNat_inj, and_F00F_toNat, and_F00F_toNat, hb, fieldM, fieldM, fieldN, fieldN]; omega

theorem matches_F0FF_iff (hb : bits &&& 0xF0FF = bits) :
    Matches ⟨name, bits, 0xF0FF⟩ w ↔ fieldM w = fieldM bits ∧ fieldKk w = fieldKk bits := by
  rw [Matches, ← hb, ← BitVec.toNat_inj, ← BitVec.toNat_inj, and_F0FF_toNat, and_F0FF_toNat, hb, fieldKk_toNat,
    fieldKk_toNat, fieldM, fieldM]
  omega

/-- The low byte of a row `Ex..` or `Fx..` as the decoder reads it, by its two nibbles. -/
theorem matches_F0FF_iff_nibbles (hb : bits &&& 0xF0FF = bits) :
    Matches ⟨name, bits, 0xF0FF⟩ w ↔
      fieldM w = fieldM bits ∧ (fieldY w).val = (fieldKk bits).toNat / 0x10 ∧ fieldN w = (fieldKk bits).toNat % 0x10 := by
  rw [matches_F0FF_iff hb, fieldKk_eq_iff]

end OpcodeRow

open OpcodeRow

/-! ### The decoder is the table -/

/-- The instruction of the same row whose operands are the fields of `w` (R91, R93). -/
def Instr.withFields (w : Word) : Instr → Instr
  | .cls => .cls
  | .ret => .ret
  | .jp _ => .jp (fieldNnn w)
  | .call _ => .call (fieldNnn w)
  | .seKk _ _ => .seKk (fieldX w) (fieldKk w)
  | .sneKk _ _ => .sneKk (fieldX w) (fieldKk w)
  | .seVy _ _ => .seVy (fieldX w) (fieldY w)
  | .ldKk _ _ => .ldKk (fieldX w) (fieldKk w)
  | .addKk _ _ => .addKk (fieldX w) (fieldKk w)
  | .ldVy _ _ => .ldVy (fieldX w) (fieldY w)
  | .orVy _ _ => .orVy (fieldX w) (fieldY w)
  | .andVy _ _ => .andVy (fieldX w) (fieldY w)
  | .xorVy _ _ => .xorVy (fieldX w) (fieldY w)
  | .addVy _ _ => .addVy (fieldX w) (fieldY w)
  | .subVy _ _ => .subVy (fieldX w) (fieldY w)
  | .shr _ => .shr (fieldX w)
  | .subnVy _ _ => .subnVy (fieldX w) (fieldY w)
  | .shl _ => .shl (fieldX w)
  | .sneVy _ _ => .sneVy (fieldX w) (fieldY w)
  | .ldI _ => .ldI (fieldNnn w)
  | .jpV0 _ => .jpV0 (fieldNnn w)
  | .rnd _ _ => .rnd (fieldX w) (fieldKk w)
  | .drw _ _ _ => .drw (fieldX w) (fieldY w) (fieldN w)
  | .skp _ => .skp (fieldX w)
  | .sknp _ => .sknp (fieldX w)
  | .ldVxDt _ => .ldVxDt (fieldX w)
  | .ldVxK _ => .ldVxK (fieldX w)
  | .ldDtVx _ => .ldDtVx (fieldX w)
  | .ldStVx _ => .ldStVx (fieldX w)
  | .addIVx _ => .addIVx (fieldX w)
  | .ldFVx _ => .ldFVx (fieldX w)
  | .ldBVx _ => .ldBVx (fieldX w)
  | .ldMemVx _ => .ldMemVx (fieldX w)
  | .ldVxMem _ => .ldVxMem (fieldX w)

@[simp] theorem Instr.withFields_row (w : Word) (i : Instr) : (i.withFields w).row = i.row := by cases i <;> rfl

/-- A word of an instruction's row decodes to that instruction, with the word's fields as operands. -/
theorem decode_of_matches {w : Word} (i : Instr) (h : i.row.Matches w) : decode w = .instr (i.withFields w) := by
  cases i with
  | cls => obtain rfl := matches_FFFF_iff.1 h; rfl
  | ret => obtain rfl := matches_FFFF_iff.1 h; rfl
  | jp => exact decode_jp ((matches_F000_iff rfl).1 h)
  | call => exact decode_call ((matches_F000_iff rfl).1 h)
  | seKk => exact decode_seKk ((matches_F000_iff rfl).1 h)
  | sneKk => exact decode_sneKk ((matches_F000_iff rfl).1 h)
  | ldKk => exact decode_ldKk ((matches_F000_iff rfl).1 h)
  | addKk => exact decode_addKk ((matches_F000_iff rfl).1 h)
  | ldI => exact decode_ldI ((matches_F000_iff rfl).1 h)
  | jpV0 => exact decode_jpV0 ((matches_F000_iff rfl).1 h)
  | rnd => exact decode_rnd ((matches_F000_iff rfl).1 h)
  | drw => exact decode_drw ((matches_F000_iff rfl).1 h)
  | seVy => obtain ⟨hm, hn⟩ := (matches_F00F_iff rfl).1 h; exact decode_seVy hm hn
  | ldVy => obtain ⟨hm, hn⟩ := (matches_F00F_iff rfl).1 h; exact decode_ldVy hm hn
  | orVy => obtain ⟨hm, hn⟩ := (matches_F00F_iff rfl).1 h; exact decode_orVy hm hn
  | andVy => obtain ⟨hm, hn⟩ := (matches_F00F_iff rfl).1 h; exact decode_andVy hm hn
  | xorVy => obtain ⟨hm, hn⟩ := (matches_F00F_iff rfl).1 h; exact decode_xorVy hm hn
  | addVy => obtain ⟨hm, hn⟩ := (matches_F00F_iff rfl).1 h; exact decode_addVy hm hn
  | subVy => obtain ⟨hm, hn⟩ := (matches_F00F_iff rfl).1 h; exact decode_subVy hm hn
  | shr => obtain ⟨hm, hn⟩ := (matches_F00F_iff rfl).1 h; exact decode_shr hm hn
  | subnVy => obtain ⟨hm, hn⟩ := (matches_F00F_iff rfl).1 h; exact decode_subnVy hm hn
  | shl => obtain ⟨hm, hn⟩ := (matches_F00F_iff rfl).1 h; exact decode_shl hm hn
  | sneVy => obtain ⟨hm, hn⟩ := (matches_F00F_iff rfl).1 h; exact decode_sneVy hm hn
  | skp => obtain ⟨hm, hy, hn⟩ := (matches_F0FF_iff_nibbles rfl).1 h; exact decode_skp hm hy hn
  | sknp => obtain ⟨hm, hy, hn⟩ := (matches_F0FF_iff_nibbles rfl).1 h; exact decode_sknp hm hy hn
  | ldVxDt => obtain ⟨hm, hy, hn⟩ := (matches_F0FF_iff_nibbles rfl).1 h; exact decode_ldVxDt hm hy hn
  | ldVxK => obtain ⟨hm, hy, hn⟩ := (matches_F0FF_iff_nibbles rfl).1 h; exact decode_ldVxK hm hy hn
  | ldDtVx => obtain ⟨hm, hy, hn⟩ := (matches_F0FF_iff_nibbles rfl).1 h; exact decode_ldDtVx hm hy hn
  | ldStVx => obtain ⟨hm, hy, hn⟩ := (matches_F0FF_iff_nibbles rfl).1 h; exact decode_ldStVx hm hy hn
  | addIVx => obtain ⟨hm, hy, hn⟩ := (matches_F0FF_iff_nibbles rfl).1 h; exact decode_addIVx hm hy hn
  | ldFVx => obtain ⟨hm, hy, hn⟩ := (matches_F0FF_iff_nibbles rfl).1 h; exact decode_ldFVx hm hy hn
  | ldBVx => obtain ⟨hm, hy, hn⟩ := (matches_F0FF_iff_nibbles rfl).1 h; exact decode_ldBVx hm hy hn
  | ldMemVx => obtain ⟨hm, hy, hn⟩ := (matches_F0FF_iff_nibbles rfl).1 h; exact decode_ldMemVx hm hy hn
  | ldVxMem => obtain ⟨hm, hy, hn⟩ := (matches_F0FF_iff_nibbles rfl).1 h; exact decode_ldVxMem hm hy hn

/-- The inversion lemma of `decode`; the cases are its branches, grouped by the mask of their rows. -/
theorem matches_of_decode {w : Word} {i : Instr} (h : decode w = .instr i) : i.row.Matches w ∧ i.withFields w = i := by
  revert h
  fun_cases decode w with
  | case1 hn hy hx hm | case2 hn hy hx hm =>
    rintro ⟨⟩
    have hw := wordXYN_fieldX_fieldY hm hn
    rw [Fin.ext (b := 0) hx, Fin.ext (b := 14) hy] at hw
    exact ⟨matches_FFFF_iff.2 hw.symm, rfl⟩
  | case3 hm | case4 hm | case5 hm | case6 hm | case8 hm | case9 hm | case20 hm | case21 hm | case22 hm | case23 hm =>
    rintro ⟨⟩
    exact ⟨(matches_F000_iff rfl).2 hm, rfl⟩
  | case7 hn hm | case10 hn hm | case11 hn hm | case12 hn hm | case13 hn hm | case14 hn hm | case15 hn hm
  | case16 hn hm | case17 hn hm | case18 hn hm | case19 hn hm =>
    rintro ⟨⟩
    exact ⟨(matches_F00F_iff rfl).2 ⟨hm, hn⟩, rfl⟩
  | case24 hn hy hm | case25 hn hy hm | case26 hn hy hm | case27 hn hy hm | case28 hn hy hm | case29 hn hy hm
  | case30 hn hy hm | case31 hn hy hm | case32 hn hy hm | case33 hn hy hm | case34 hn hy hm =>
    rintro ⟨⟩
    exact ⟨(matches_F0FF_iff_nibbles rfl).2 ⟨hm, hy, hn⟩, rfl⟩
  | case35 => rintro ⟨⟩

theorem decode_eq_instr_iff {w : Word} {i : Instr} : decode w = .instr i ↔ i.row.Matches w ∧ i.withFields w = i := by
  constructor
  · exact matches_of_decode
  · rintro ⟨hrow, hi⟩
    rw [decode_of_matches i hrow, hi]

/-! ### Encoding (R90, R92, R94, R98) -/

/-- The fields that a row `m...n` compares. -/
theorem wordXYN_m_n {m n : Nat} (hm : m < 16) (x y : RegIx) (hn : n < 16) :
    fieldM (wordXYN m x y n) = m ∧ fieldN (wordXYN m x y n) = n := by
  obtain ⟨hm', _, _, hn'⟩ := wordXYN_fields hm x y hn
  exact ⟨hm', hn'⟩

/-- The fields that a row `m.kk` compares. -/
theorem wordXKk_m_kk {m : Nat} (hm : m < 16) (x : RegIx) (kk : Byte) :
    fieldM (wordXKk m x kk) = m ∧ fieldKk (wordXKk m x kk) = kk := by
  obtain ⟨hm', _, hkk, _⟩ := wordXKk_fields hm x kk
  exact ⟨hm', hkk⟩

theorem encode_matches_row {i : Instr} (h : i.WellFormed) : i.row.Matches (encode i) := by
  cases i with
  | cls | ret => rfl
  | jp | call | ldI | jpV0 => exact (matches_F000_iff rfl).2 (wordNnn_fields (by decide) (of_decide_eq_true h)).1
  | seKk x kk | sneKk x kk | ldKk x kk | addKk x kk | rnd x kk =>
    exact (matches_F000_iff rfl).2 (wordXKk_m_kk (by decide) x kk).1
  | drw x y n => exact (matches_F000_iff rfl).2 (wordXYN_m_n (by decide) x y (of_decide_eq_true h)).1
  | seVy x y | ldVy x y | orVy x y | andVy x y | xorVy x y | addVy x y | subVy x y | subnVy x y | sneVy x y =>
    exact (matches_F00F_iff rfl).2 (wordXYN_m_n (by decide) x y (by decide))
  | shr x | shl x => exact (matches_F00F_iff rfl).2 (wordXYN_m_n (by decide) x 0 (by decide))
  | skp x | sknp x | ldVxDt x | ldVxK x | ldDtVx x | ldStVx x | addIVx x | ldFVx x | ldBVx x | ldMemVx x | ldVxMem x =>
    exact (matches_F0FF_iff rfl).2 (wordXKk_m_kk (by decide) x _)

theorem withFields_encode {i : Instr} (h : i.WellFormed) : i.withFields (encode i) = i := by
  cases i with
  | cls | ret => rfl
  | jp | call | ldI | jpV0 => simp [Instr.withFields, encode, wordNnn_fields, of_decide_eq_true h]
  | drw => simp [Instr.withFields, encode, wordXYN_fields, of_decide_eq_true h]
  | _ => simp [Instr.withFields, encode, wordXKk_fields, wordXYN_fields]

/-- Settles O2: the encoding belongs to the row of the instruction and holds its operands; its two bytes make it up. -/
theorem encodeThenDecode : Obligations.EncodeThenDecode := by
  intro i hi
  have hdecode : decode (encode i) = .instr i := decode_eq_instr_iff.2 ⟨encode_matches_row hi, withFields_encode hi⟩
  refine ⟨hdecode, fun rest => ?_⟩
  rw [decodeBytes, concat8_bytes, hdecode]

/-- A word of a row whose fields are all opcode or operand is the encoding of what it decodes to. -/
theorem encode_withFields {w : Word} {i : Instr} (h : i.row.Matches w) (hi : ∀ x, i ≠ .shr x ∧ i ≠ .shl x) :
    encode (i.withFields w) = w := by
  cases i with
  | cls | ret => exact (matches_FFFF_iff.1 h).symm
  | jp | call | ldI | jpV0 => exact wordNnn_fieldNnn ((matches_F000_iff rfl).1 h)
  | seKk | sneKk | ldKk | addKk | rnd => exact wordXKk_fieldX ((matches_F000_iff rfl).1 h) rfl
  | drw => exact wordXYN_fieldX_fieldY ((matches_F000_iff rfl).1 h) rfl
  | seVy | ldVy | orVy | andVy | xorVy | addVy | subVy | subnVy | sneVy =>
    obtain ⟨hm, hn⟩ := (matches_F00F_iff rfl).1 h
    exact wordXYN_fieldX_fieldY hm hn
  | skp | sknp | ldVxDt | ldVxK | ldDtVx | ldStVx | addIVx | ldFVx | ldBVx | ldMemVx | ldVxMem =>
    obtain ⟨hm, hkk⟩ := (matches_F0FF_iff rfl).1 h
    exact wordXKk_fieldX hm hkk
  | shr x => exact absurd rfl (hi x).1
  | shl x => exact absurd rfl (hi x).2

/-- Settles O3: the decoded instruction is its row's with the word's fields; for SHR and SHL all fields but `y`. -/
theorem decodeThenEncode : Obligations.DecodeThenEncode := by
  intro w i h
  obtain ⟨hrow, hi⟩ := matches_of_decode h
  constructor
  · rintro ⟨x, hx⟩
    rw [← hi]
    rcases hx with rfl | rfl
    all_goals
      obtain ⟨hm, hn⟩ := (matches_F00F_iff rfl).1 hrow
      exact wordXYN_fieldX_zero hm hn
  · intro hne
    rw [← hi]
    exact encode_withFields hrow hne

/-! ### The table is the whole of the decoder (R94, R95) -/

theorem row_mem_opcodeRows (i : Instr) : i.row ∈ opcodeRows := by
  cases i <;> simp only [opcodeRows, Instr.row, List.mem_append, List.mem_cons, true_or, or_true]

theorem exists_row_eq {r : OpcodeRow} (h : r ∈ opcodeRows) : ∃ i : Instr, i.row = r := by
  revert r
  simp [opcodeRows]

/-- Settles O4, by the inversion lemma of `decode` one way and the decoding of a row's words the other. -/
theorem decodeFollowsOpcodeTable : Obligations.DecodeFollowsOpcodeTable := by
  refine ⟨rfl, fun w i h => ⟨row_mem_opcodeRows i, (matches_of_decode h).1⟩, fun w r hr hw => ?_⟩
  obtain ⟨i, rfl⟩ := exists_row_eq hr
  exact ⟨i.withFields w, decode_of_matches i hw, i.withFields_row w⟩

theorem decode_eq_unsupported_iff {w : Word} : decode w = .unsupported w ↔ ∀ r ∈ opcodeRows, ¬ r.Matches w := by
  constructor
  · intro h r hr hw
    obtain ⟨i, rfl⟩ := exists_row_eq hr
    rw [decode_of_matches i hw] at h
    cases h
  · intro h
    cases hd : decode w with
    | instr i => exact absurd (matches_of_decode hd).1 (h _ (row_mem_opcodeRows i))
    | unsupported u => rw [decode_unsupported_self hd]

/-- Settles O5: no row of R94 holds the word; the rows are compared field by field, for each major nibble. -/
theorem unsupportedWordsAreThoseListed : Obligations.UnsupportedWordsAreThoseListed := by
  intro w
  rw [decode_eq_unsupported_iff]
  simp (disch := decide) only [opcodeRows, List.forall_mem_append, List.forall_mem_cons, Instr.row, matches_FFFF_iff,
    matches_F000_iff, matches_F00F_iff, matches_F0FF_iff]
  simp only [fieldM, fieldN, ← BitVec.toNat_inj, fieldKk_toNat, ne_eq, List.mem_cons, List.not_mem_nil,
    BitVec.ofNat_eq_ofNat, BitVec.toNat_ofNat, Nat.reducePow, Nat.reduceMod, Nat.reduceDiv]
  have hlt : w.toNat / 0x1000 < 16 := fieldM_lt w
  generalize hm : w.toNat / 0x1000 = m at *
  interval_cases m
  all_goals simp
  all_goals omega

/-- Settles O1: the decoder runs on each word. -/
theorem sampleWordsDecode : Obligations.SampleWordsDecode := by
  unfold Obligations.SampleWordsDecode
  decide

end Sys2Proof

/-! ## The family of spec/40_cycle.md: the ways through a cycle, and that a fault repeats -/

namespace Sys2Proof.Machine

/-! ### The fetched word, the wait step and the parked state -/

theorem fetchWord_eq {s : State} {w : Word}
    (h : w.toNat = (s.mem.read s.pc.toNat).toNat * 0x100 + (s.mem.read (s.pc.toNat + 1)).toNat) : fetchWord s = w :=
  BitVec.eq_of_toNat_eq ((concat8_toNat _ _).trans h.symm)

/-- Settles O6: the word at pc is the fetched word, and its instruction runs on the state after the fetch. -/
theorem stepRunsDecodedInstruction : Obligations.StepRunsDecodedInstruction := by
  intro s w i hw hp hword hd
  obtain rfl := fetchWord_eq hword
  constructor
  · intro t ht
    have hexec : exec i (afterFetch s) = .next t := ht
    have hrun : runCycle s = .next (.success, t) := by
      rw [runCycle_instr hw (by omega) hd, hexec, reportFault_next, returnSuccess_next]
    exact (cycle_of_runCycle_next hrun).symm
  · intro cause value hf
    have hexec : exec i (afterFetch s) = .fault (.raised cause value) := hf
    have hstep : step s = .fault (.outOfBounds cause value s.pc (some (fetchWord s))) := by
      rw [step_instr hw (by omega) hd, hexec, reportFault_raised]
    exact ⟨hstep, cycle_of_step_fault hstep⟩

/-- Settles O7. -/
theorem fetchOutsideMemoryFaults : Obligations.FetchOutsideMemoryFaults := fun _ => step_fetch_fault

/-- Settles O8: the fetch moves pc, and nothing follows it. -/
theorem unsupportedWordIsReportedAndSkipped : Obligations.UnsupportedWordIsReportedAndSkipped := by
  intro s w hw hp hword hd
  obtain rfl := fetchWord_eq hword
  obtain ⟨hcycle, hstep⟩ := cycle_of_runCycle_next (runCycle_unsupported hw (by omega) hd)
  exact ⟨afterFetch s, hstep, hcycle, afterFetch_pc s, frame_setPc s (s.pc + 2)⟩

/-- Two keys cannot both be the least one pressed. -/
theorem leastPressed_eq_some {key : Vector Bool 16} {k : KeyIx} (hk : key[k] = true)
    (hlow : ∀ j : KeyIx, j < k → key[j] = false) : leastPressed key = some k := by
  cases h : leastPressed key with
  | none => exact Bool.noConfusion (hk.symm.trans (leastPressed_none h k))
  | some j =>
    obtain ⟨hj, hjlow⟩ := leastPressed_some h
    have hjk : ¬ j < k := fun hlt => Bool.noConfusion (hj.symm.trans (hlow j hlt))
    have hkj : ¬ k < j := fun hlt => Bool.noConfusion (hk.symm.trans (hjlow k hlt))
    rw [le_antisymm (not_lt.mp hkj) (not_lt.mp hjk)]

theorem leastPressed_eq_none {key : Vector Bool 16} (h : ∀ k : KeyIx, key[k] = false) : leastPressed key = none := by
  cases hl : leastPressed key with
  | none => rfl
  | some k => exact Bool.noConfusion ((h k).symm.trans (leastPressed_some hl).1)

theorem waitStep_pressed {s : State} {k : KeyIx} (x : RegIx) (h : leastPressed s.key = some k) :
    waitStep x s = ((s.setV x (keyByte k)).setWait none).setPc (s.pc + 2) := by simp only [waitStep, h]

theorem waitStep_unpressed {s : State} (x : RegIx) (h : leastPressed s.key = none) : waitStep x s = s := by
  simp only [waitStep, h]

theorem frame_setWait (s : State) (w : Option RegIx) : FrameExcept (fun p => p = .wait) s (s.setWait w) := by
  intro p hp
  cases p with
  | wait => exact absurd rfl hp
  | _ => rfl

/-- The wait step writes the saved register, `wait` and pc only. -/
theorem frame_waitStep (x : RegIx) (s : State) :
    FrameExcept (fun p => p = .reg x ∨ p = .wait ∨ p = .pc) s (waitStep x s) := by
  cases h : leastPressed s.key with
  | none => rw [waitStep_unpressed x h]; exact FrameExcept.refl _ s
  | some k =>
    rw [waitStep_pressed x h]
    refine (((frame_setV _ _ _).mono ?_).trans ((frame_setWait _ _).mono ?_)).trans ((frame_setPc _ _).mono ?_)
    · exact fun _ hp => .inl hp
    · exact fun _ hp => .inr (.inl hp)
    · exact fun _ hp => .inr (.inr hp)

/-- Settles O43: the two ways of the wait step. -/
theorem waitStepPollsKeys : Obligations.WaitStepPollsKeys := by
  intro x s hw
  obtain ⟨hcycle, hstep⟩ := cycle_of_runCycle_next (runCycle_waiting hw)
  constructor
  · intro k hk hlow
    have hkey := waitStep_pressed x (leastPressed_eq_some hk hlow)
    refine ⟨waitStep x s, hstep, hcycle, ?_, by rw [hkey]; rfl, by rw [hkey]; rfl, frame_waitStep x s⟩
    rw [hkey, setPc_V, setWait_V, setV_read, if_pos rfl, keyByte_toNat]
  · intro hnone
    rw [waitStep_unpressed x (leastPressed_eq_none hnone)] at hcycle hstep
    exact ⟨hstep, hcycle⟩

/-- A state that steps to itself stays, however many cycles run. -/
theorem run_of_step_self {s : State} (h : step s = .next s) (n : Nat) : Host.Core.run core n s = .next s := by
  induction n with
  | zero => rfl
  | succ n ih =>
    have hcore : core.step s = .next s := h
    simp only [Host.Core.run, hcore, ih]

/-- Settles O59: the jump puts back the pc that the fetch moved. -/
theorem parkedStateStays : Obligations.ParkedStateStays := by
  intro s n hw hp hd
  have hback : exec (.jp s.pc) (afterFetch s) = .next s := rfl
  have hrun : runCycle s = .next (.success, s) := by
    rw [runCycle_instr hw (by omega) hd, hback, reportFault_next, returnSuccess_next]
  obtain ⟨hcycle, hstep⟩ := cycle_of_runCycle_next hrun
  exact ⟨hcycle, run_of_step_self hstep n⟩

/-! ### When an instruction faults

`Raises` says once, for all 34 instructions, when they fault; `exec_eq_fault_iff` ties it to `exec`. -/

/-- A CALL or RET with SP above 15, which no run reaches (log 14). -/
def StackPointerOut (i : Instr) (s : State) : Prop := 15 < s.SP.toNat ∧ (i = .ret ∨ ∃ nnn, i = .call nnn)

/-- The instruction raises the cause with the value: its row of R301, or STACK_OVERFLOW through an SP above 15. -/
def Raises (i : Instr) (s : State) (cause : Cause) (value : Nat) : Prop :=
  FaultRow i s cause value ∨ (StackPointerOut i s ∧ cause = .stackOverflow ∧ value = s.SP.toNat)

theorem raises_iff_faultRow {i : Instr} {s : State} {cause : Cause} {value : Nat} (h : ¬ StackPointerOut i s) :
    Raises i s cause value ↔ FaultRow i s cause value :=
  or_iff_left fun hout => h hout.1

theorem raises_iff_of_stackPointerOut {i : Instr} {s : State} {cause : Cause} {value : Nat} (h : StackPointerOut i s) :
    Raises i s cause value ↔ cause = .stackOverflow ∧ value = s.SP.toNat := by
  have hrow : ¬ FaultRow i s cause value := by
    obtain ⟨hSP, rfl | ⟨nnn, rfl⟩⟩ := h <;> exact fun hrow => absurd hrow.1 (by omega)
  simp only [Raises, hrow, h, false_or, true_and]

theorem exec_of_stackPointerOut {i : Instr} {s : State} (h : StackPointerOut i s) :
    exec i s = raise .stackOverflow s.SP.toNat := by
  obtain ⟨hSP, rfl | ⟨nnn, rfl⟩⟩ := h
  · rcases execRet_cases s with ⟨_, _⟩ | ⟨_, _, _⟩ | ⟨_, e⟩
    · omega
    · omega
    · exact e
  · rcases execCall_cases nnn s with ⟨_, _⟩ | ⟨_, e⟩
    · omega
    · exact e

theorem raise_eq_fault_iff {σ : Type} {expected : Cause} {v : Nat} {f : Fault} :
    raise (σ := σ) expected v = .fault f ↔ ∃ cause value, f = .raised cause value ∧ cause = expected ∧ value = v := by
  simp [raise, eq_comm]

/-- A guard before a completion: the guard alone decides the fault. -/
theorem guard_eq_fault_iff {c : Prop} [Decidable c] {expected : Cause} {v : Nat} {t : State} {f : Fault} :
    (if c then raise expected v else .next t) = (.fault f : Result) ↔
      ∃ cause value, f = .raised cause value ∧ c ∧ cause = expected ∧ value = v := by
  by_cases hc : c
  · simp only [hc, if_true, true_and, raise_eq_fault_iff]
  · simp [hc]

theorem checkRange_eq_fault_iff {s t : State} {k : Nat} {f : Fault} :
    checkRange .memory s.I k (.next t) = .fault f ↔
      ∃ cause value, f = .raised cause value ∧ MemoryRow s k cause value := by
  simp only [checkRange, guard_eq_fault_iff, MemoryRow, and_assoc]

theorem checkIndex_eq_fault_iff {s : State} {x : RegIx} {expected : Cause} {t : Fin 16 → State} {f : Fault} :
    checkIndex expected (regOperand s x) (fun d => .next (t d)) = .fault f ↔
      ∃ cause value, f = .raised cause value ∧ IndexRow s x expected cause value :=
  guard_eq_fault_iff

/-- An instruction that always completes has no row. -/
theorem next_eq_fault_iff {t : State} {f : Fault} :
    (.next t : Result) = .fault f ↔ ∃ cause value, f = .raised cause value ∧ False := by simp

/-- With SP in its range an instruction faults exactly by its row of R301. -/
theorem exec_eq_fault_iff_faultRow {i : Instr} {s : State} {f : Fault} (h : ¬ StackPointerOut i s) :
    exec i s = .fault f ↔ ∃ cause value, f = .raised cause value ∧ FaultRow i s cause value := by
  cases i with
  | drw | ldBVx | ldMemVx | ldVxMem => exact checkRange_eq_fault_iff
  | skp x => exact checkIndex_eq_fault_iff (t := fun k => s.skipIf s.key[k])
  | sknp x => exact checkIndex_eq_fault_iff (t := fun k => s.skipIf (!s.key[k]))
  | ldFVx => exact checkIndex_eq_fault_iff (t := fun d => s.setI (glyphAddress d))
  | addIVx => exact guard_eq_fault_iff
  | ret =>
    change execRet s = _ ↔ _
    rcases execRet_cases s with ⟨hzero, e⟩ | ⟨hlo, _, _, e⟩ | ⟨hgt, e⟩ <;> rw [e]
    · simp [FaultRow, hzero, raise_eq_fault_iff]
    · have hzero : s.SP.toNat ≠ 0 := by omega
      simp [FaultRow, hzero]
    · exact absurd ⟨hgt, .inl rfl⟩ h
  | call nnn =>
    have hSP : ¬ 15 < s.SP.toNat := fun hlt => h ⟨hlt, .inr ⟨nnn, rfl⟩⟩
    change execCall nnn s = _ ↔ _
    rcases execCall_cases nnn s with ⟨hlt, _, e⟩ | ⟨hge, e⟩ <;> rw [e]
    · have hne : s.SP.toNat ≠ 15 := by omega
      simp [FaultRow, hne]
    · have heq : s.SP.toNat = 15 := by omega
      simp [FaultRow, heq, raise_eq_fault_iff]
  | ldVxK x =>
    change execLdVxK x s = _ ↔ _
    unfold execLdVxK
    split <;> exact next_eq_fault_iff
  | _ => exact next_eq_fault_iff

/-- An instruction faults exactly where it raises. -/
theorem exec_eq_fault_iff {i : Instr} {s : State} {f : Fault} :
    exec i s = .fault f ↔ ∃ cause value, f = .raised cause value ∧ Raises i s cause value := by
  by_cases h : StackPointerOut i s
  · simp only [exec_of_stackPointerOut h, raises_iff_of_stackPointerOut h, raise_eq_fault_iff]
  · simp only [exec_eq_fault_iff_faultRow h, raises_iff_faultRow h]

/-! ### When a cycle faults -/

/-- A reported fault of a meaning, which raises and does not report, is its raised one, completed (R127). -/
theorem reportFault_eq_fault_iff {σ : Type} {ipc : Word} {w : Option Word} {r : Answer σ} {f : Fault}
    (h : ∀ c v p o, r ≠ .fault (.outOfBounds c v p o)) :
    reportFault ipc w r = .fault f ↔
      ∃ cause value, r = .fault (.raised cause value) ∧ f = .outOfBounds cause value ipc w := by
  cases r with
  | next t => simp
  | fault g =>
    cases g with
    | raised cause value => simp [eq_comm]
    | outOfBounds c v p o => exact absurd rfl (h c v p o)
  | refused e => simp

/-- A cycle faults at the fetch bound, or with what the fetched instruction raises; never while it waits. -/
theorem step_eq_fault_iff {s : State} {f : Fault} :
    step s = .fault f ↔ s.wait = none ∧
      ((0xFFF ≤ s.pc.toNat ∧ f = .outOfBounds .fetch (max s.pc.toNat 0x1000) s.pc none) ∨
       (s.pc.toNat < 0xFFF ∧ ∃ i cause value, decode (fetchWord s) = .instr i ∧ Raises i (afterFetch s) cause value ∧
          f = .outOfBounds cause value s.pc (some (fetchWord s)))) := by
  rcases hw : s.wait with _ | x
  · by_cases hp : s.pc.toNat < 0xFFF
    · have hnot : ¬ 0xFFF ≤ s.pc.toNat := by omega
      cases hd : decode (fetchWord s) with
      | unsupported u => simp [step_unsupported hw hp hd, hnot]
      | instr i =>
        have hraised : ∀ c v p o, exec i (afterFetch s) ≠ .fault (.outOfBounds c v p o) := fun _ _ _ _ h =>
          have ⟨_, _, heq, _⟩ := exec_eq_fault_iff.mp h
          nomatch heq
        rw [step_instr hw hp hd, reportFault_eq_fault_iff hraised]
        simp [exec_eq_fault_iff, hnot, hp]
    · have hle : 0xFFF ≤ s.pc.toNat := by omega
      simp [step_fetch_fault hw hle, hle, hp, eq_comm]
  · simp [step_waiting hw]

/-! ### A fault repeats

Memory, V, I, pc, SP and `wait` alone decide whether a cycle faults, and with which record. TICK, KEYSET and DISPREAD write
none of them, and a cycle that faults leaves the state as it was (R127). -/

/-- The parts that decide a cycle's fault are the same in both states. -/
structure SameFaultParts (s t : State) : Prop where
  mem : t.mem = s.mem
  V : t.V = s.V
  I : t.I = s.I
  pc : t.pc = s.pc
  SP : t.SP = s.SP
  wait : t.wait = s.wait

theorem sameFaultParts_tick (s : State) : SameFaultParts s s.tick := ⟨rfl, rfl, rfl, rfl, rfl, rfl⟩

theorem sameFaultParts_keySet (s : State) (k : KeyIx) (pressed : Bool) : SameFaultParts s (s.keySet k pressed) :=
  ⟨rfl, rfl, rfl, rfl, rfl, rfl⟩

theorem SameFaultParts.afterFetch {s t : State} (h : SameFaultParts s t) :
    SameFaultParts (afterFetch s) (afterFetch t) :=
  ⟨h.mem, h.V, h.I, congrArg (· + 2) h.pc, h.SP, h.wait⟩

theorem SameFaultParts.fetchWord {s t : State} (h : SameFaultParts s t) : fetchWord t = fetchWord s := by
  simp only [Machine.fetchWord, h.mem, h.pc]

theorem SameFaultParts.raises {s t : State} (h : SameFaultParts s t) {i : Instr} {cause : Cause} {value : Nat} :
    Raises i t cause value ↔ Raises i s cause value := by
  have hrow : FaultRow i t cause value ↔ FaultRow i s cause value := by
    cases i <;> simp only [FaultRow, MemoryRow, IndexRow, h.V, h.I, h.SP]
  simp only [Raises, StackPointerOut, hrow, h.SP]

theorem SameFaultParts.step_fault {s t : State} (h : SameFaultParts s t) {f : Fault} (hf : step s = .fault f) :
    step t = .fault f := by
  rw [step_eq_fault_iff] at hf ⊢
  simpa only [h.wait, h.pc, h.fetchWord, h.afterFetch.raises] using hf

/-- One host operation short of RESET and LOAD keeps the fault, and a CYCLE returns it. -/
theorem perform_keeps_fault {s : State} {f : Fault} {op : HostOp} (h : step s = .fault f)
    (hreset : ∀ seed, op ≠ .reset seed) (hload : ∀ bytes, op ≠ .load bytes) :
    ∃ reply t, Session.perform ⟨s, .running⟩ op = .next (reply, ⟨t, .running⟩) ∧ step t = .fault f ∧
      ∀ o, reply = .cycled o → o = .fault f := by
  cases op with
  | reset seed => exact absurd rfl (hreset seed)
  | load bytes => exact absurd rfl (hload bytes)
  | cycle =>
    refine ⟨.cycled (.fault f), s, ?_, h, fun o ho => by cases ho; rfl⟩
    simp only [Session.perform, cycle_of_step_fault h]
  | tick => exact ⟨.done, s.tick, rfl, (sameFaultParts_tick s).step_fault h, fun _ ho => nomatch ho⟩
  | keySet k pressed =>
    exact ⟨.done, s.keySet k pressed, rfl, (sameFaultParts_keySet s k pressed).step_fault h, fun _ ho => nomatch ho⟩
  | dispRead => exact ⟨.display s.disp, s, rfl, h, fun _ ho => nomatch ho⟩

/-- Settles O12, by induction on the operations: each keeps the fault for the ones after it. -/
theorem faultIsSticky : Obligations.FaultIsSticky := by
  intro s f ops h hreset hload
  induction ops generalizing s with
  | nil => exact ⟨[], ⟨s, .running⟩, rfl, h, fun _ ho => nomatch ho⟩
  | cons op ops ih =>
    simp only [List.mem_cons, not_or] at hreset hload
    obtain ⟨reply, t, hperform, ht, hreply⟩ :=
      perform_keeps_fault h (fun seed e => (hreset seed).1 e.symm) fun bytes e => (hload bytes).1 e.symm
    obtain ⟨replies, u, hrest, hu, hreplies⟩ := ih t ht (fun seed => (hreset seed).2) fun bytes => (hload bytes).2
    refine ⟨reply :: replies, u, by simp only [Session.performAll, hperform, hrest], hu, fun o ho => ?_⟩
    rcases List.mem_cons.mp ho with heq | hmem
    · exact hreply o heq.symm
    · exact hreplies o hmem

end Sys2Proof.Machine

/-! ## The family of spec/41_control_flow.md: jumps, calls, returns and skips -/

namespace Sys2Proof.Machine

/-! ### Encodings (R94, R95) -/

theorem decode_encode {i : Instr} (h : i.WellFormed) : decode (encode i) = .instr i := (encodeThenDecode i h).1

/-- In the families `5xyn` and `9xyn` a last nibble other than 0 stands for no instruction (R95). -/
theorem decode_wordXYN_unsupported {m n : Nat} (hm : m = 0x5 ∨ m = 0x9) (x y : RegIx) (hpos : 1 ≤ n) (hn : n < 16) :
    decode (wordXYN m x y n) = .unsupported (wordXYN m x y n) := by
  obtain ⟨hfm, hfn⟩ := wordXYN_m_n (m := m) (by omega) x y hn
  have hnibble : fieldN (wordXYN m x y n) ≠ 0 := by omega
  refine (unsupportedWordsAreThoseListed _).2 ?_
  rcases hm with rfl | rfl
  · exact .inr (.inl ⟨hfm, hnibble⟩)
  · exact .inr (.inr (.inr (.inl ⟨hfm, hnibble⟩)))

/-! ### Frames and skips -/

theorem frame_setSP (s : State) (b : Byte) : FrameExcept (fun p => p = .sp) s (s.setSP b) := by
  intro p hp
  cases p with
  | sp => exact absurd rfl hp
  | _ => rfl

theorem frame_setStack (s : State) (j : Fin 16) (w : Word) :
    FrameExcept (fun p => p = .stackEntry j) s (s.setStack j w) := by
  intro p hp
  cases p with
  | stackEntry k =>
    have hne : k ≠ j := fun h => hp (by rw [h])
    simp only [Part.Same, setStack_stack, stack_set, if_neg hne]
  | _ => rfl

/-- A skip moves pc a further 2 exactly under its condition (R18, R126). -/
theorem skipIf_decide_pc (s : State) (c : Prop) [Decidable c] :
    (s.skipIf (decide c)).pc = if c then s.pc + 2 else s.pc := by
  by_cases h : c <;> simp [State.skipIf, h]

/-- The condition of SNE, told by the complement. -/
theorem skipIf_decide_not_pc (s : State) (c : Prop) [Decidable c] :
    (s.skipIf (decide (¬ c))).pc = if c then s.pc else s.pc + 2 :=
  (skipIf_decide_pc s (¬ c)).trans (ite_not c _ _)

/-! ### Jumps and skips -/

/-- Settles O13. -/
theorem jumpSetsPc : Obligations.JumpSetsPc := by
  constructor
  · intro nnn h
    have hval : (BitVec.ofNat 16 nnn).toNat = nnn := Nat.mod_eq_of_lt (by omega)
    have hfits : (Instr.jp (BitVec.ofNat 16 nnn)).WellFormed := decide_eq_true (hval.symm ▸ h)
    have hword : encode (.jp (BitVec.ofNat 16 nnn)) = BitVec.ofNat 16 (0x1000 + nnn) := by
      rw [encode, wordNnn, hval, Nat.mod_eq_of_lt h]
    exact hword ▸ decode_encode hfits
  · intro nnn s
    exact ⟨s.setPc nnn, rfl, setPc_pc s nnn, frame_setPc s nnn⟩

/-- Settles O20: the target's 16 bits hold the exact sum. -/
theorem jumpV0AddsExactly : Obligations.JumpV0AddsExactly := by
  intro nnn s h
  exact ⟨s.setPc (v0Target s nnn), rfl, v0Target_toNat h, frame_setPc s _⟩

/-- Settles O18. -/
theorem skipsOnImmediate : Obligations.SkipsOnImmediate := by
  constructor
  · intro x kk
    exact ⟨decode_encode (i := .seKk x kk) rfl, decode_encode (i := .sneKk x kk) rfl⟩
  · intro x kk s
    exact ⟨⟨_, rfl, skipIf_decide_pc s (s.V[x] = kk), frame_skipIf s _⟩,
      ⟨_, rfl, skipIf_decide_not_pc s (s.V[x] = kk), frame_skipIf s _⟩⟩

/-- Settles O19; the unsupported words are two of the families of R95. -/
theorem skipsOnRegisters : Obligations.SkipsOnRegisters := by
  refine ⟨?encodings, ?unsupported, ?meanings⟩
  case encodings =>
    intro x y
    exact ⟨decode_encode (i := .seVy x y) rfl, decode_encode (i := .sneVy x y) rfl⟩
  case unsupported =>
    intro x y n hpos hn
    have hse := decode_wordXYN_unsupported (.inl rfl) x y hpos hn
    have hsne := decode_wordXYN_unsupported (.inr rfl) x y hpos hn
    rw [wordXYN, Nat.mod_eq_of_lt hn] at hse hsne
    exact ⟨⟨_, hse⟩, ⟨_, hsne⟩⟩
  case meanings =>
    intro x y s
    exact ⟨⟨_, rfl, skipIf_decide_pc s (s.V[x] = s.V[y]), frame_skipIf s _⟩,
      ⟨_, rfl, skipIf_decide_not_pc s (s.V[x] = s.V[y]), frame_skipIf s _⟩⟩

/-! ### Calls and returns -/

/-- CALL writes SP, the entry above it, and pc (R152). -/
theorem frame_call (s : State) (nnn : Word) (j : Fin 16) (b : Byte) :
    FrameExcept (fun p => p = .pc ∨ p = .sp ∨ p = .stackEntry j) s (((s.setSP b).setStack j s.pc).setPc nnn) := by
  refine (((frame_setSP s b).mono ?_).trans ((frame_setStack _ j s.pc).mono ?_)).trans ((frame_setPc _ nnn).mono ?_)
  · exact fun _ hp => .inr (.inl hp)
  · exact fun _ hp => .inr (.inr hp)
  · exact fun _ hp => .inl hp

/-- RET writes pc and SP (R150). -/
theorem frame_ret (s : State) (w : Word) (b : Byte) :
    FrameExcept (fun p => p = .pc ∨ p = .sp) s ((s.setPc w).setSP b) :=
  ((frame_setPc s w).mono fun _ hp => .inl hp).trans ((frame_setSP _ b).mono fun _ hp => .inr hp)

/-- Settles O14: `stack[SP + 1]` is the one entry CALL writes, and 15 outstanding calls are its row of R301. -/
theorem callPushesReturnAddress : Obligations.CallPushesReturnAddress := by
  intro nnn s
  constructor
  · intro h
    rcases execCall_cases nnn s with ⟨_, hSP, hexec⟩ | ⟨hge, _⟩
    · have hentry : (stackIx (s.SP + 1)).val = s.SP.toNat + 1 := (stackIx_val (by omega)).trans hSP
      refine ⟨_, hexec, hSP, rfl, ?_, (frame_call s nnn _ _).mono ?_⟩
      · intro j hj
        obtain rfl : j = stackIx (s.SP + 1) := Fin.ext (hj.trans hentry.symm)
        simp only [setPc_stack, setStack_stack, stack_set, if_true]
      · exact fun p hp => hp.imp_right (Or.imp_right fun hp => ⟨_, hentry, hp⟩)
    · omega
  · intro h
    exact exec_eq_fault_iff.2 ⟨.stackOverflow, 15, rfl, .inl ⟨h, rfl, rfl⟩⟩

/-- Settles O15: `stack[SP]` is the entry RET reads, and an empty stack is its row of R301. -/
theorem returnPopsAddress : Obligations.ReturnPopsAddress := by
  intro s
  constructor
  · intro hlo hhi
    rcases execRet_cases s with ⟨hzero, _⟩ | ⟨_, _, hSP, hexec⟩ | ⟨hgt, _⟩
    · omega
    · refine ⟨_, hexec, hSP, ?_, frame_ret s _ _⟩
      intro j hj
      obtain rfl : j = stackIx s.SP := Fin.ext (hj.trans (stackIx_val hhi).symm)
      rfl
    · omega
  · intro h
    exact exec_eq_fault_iff.2 ⟨.stackUnderflow, 0, rfl, .inl ⟨h, rfl, rfl⟩⟩

/-- Settles O17: RET pops the entry that CALL pushed. -/
theorem callThenReturnRestoresPc : Obligations.CallThenReturnRestoresPc := by
  intro nnn s h
  obtain ⟨t, hcall, htSP, _, hpushed, _⟩ := (callPushesReturnAddress nnn s).1 h
  refine ⟨t, hcall, fun u huSP hentry => ?_⟩
  have huSP' : u.SP.toNat = s.SP.toNat + 1 := huSP ▸ htSP
  obtain ⟨v, hret, hvSP, hpopped, _⟩ := (returnPopsAddress u).1 (by omega) (by omega)
  refine ⟨v, hret, ?_, BitVec.eq_of_toNat_eq (by omega)⟩
  obtain ⟨j, hj⟩ : ∃ j : Fin 16, j.val = s.SP.toNat + 1 := ⟨⟨s.SP.toNat + 1, by omega⟩, rfl⟩
  calc v.pc = u.stack[j] := hpopped j (hj.trans huSP'.symm)
    _ = t.stack[j] := hentry j (hj.trans htSP.symm)
    _ = s.pc := hpushed j hj

end Sys2Proof.Machine

/-! ## The family of spec/42_alu.md: register loads, arithmetic, logic, shifts and RND -/

namespace Sys2Proof.Machine

/-! ### Encodings: the words `8xyn` (R94) -/

/-- A word `8xyn` summed with its last nibble first is the word of that layout. -/
theorem decode_aluWord {x y : RegIx} {n : Nat} {i : Instr} (hn : n < 16) (h : decode (wordXYN 0x8 x y n) = .instr i) :
    decode (BitVec.ofNat 16 (0x8000 + n + x.val * 0x100 + y.val * 0x10)) = .instr i := by
  have hsum : 0x8000 + n + x.val * 0x100 + y.val * 0x10 = 0x8 * 0x1000 + x.val * 0x100 + y.val * 0x10 + n % 0x10 := by
    omega
  rw [hsum]
  exact h

/-- SHR is decoded whatever its y field (R96). -/
theorem decode_wordXYN_shr (x y : RegIx) : decode (wordXYN 0x8 x y 0x6) = .instr (.shr x) := by
  obtain ⟨hm, hx, _, hn⟩ := wordXYN_fields (m := 0x8) (n := 0x6) (by decide) x y (by decide)
  rw [decode_shr hm hn, hx]

/-- SHL is decoded whatever its y field (R96). -/
theorem decode_wordXYN_shl (x y : RegIx) : decode (wordXYN 0x8 x y 0xE) = .instr (.shl x) := by
  obtain ⟨hm, hx, _, hn⟩ := wordXYN_fields (m := 0x8) (n := 0xE) (by decide) x y (by decide)
  rw [decode_shl hm hn, hx]

/-! ### Instructions that write only Vx (R180 to R185) -/

theorem setV_read_same (s : State) (x : RegIx) (b : Byte) : (s.setV x b).V[x] = b :=
  (setV_read s x x b).trans (if_pos rfl)

/-- Settles O21. -/
theorem loadsRegister : Obligations.LoadsRegister := by
  constructor
  · intro x y kk
    exact ⟨decode_encode (i := .ldKk x kk) rfl, decode_encode (i := .ldVy x y) rfl⟩
  · intro x y kk s
    exact ⟨⟨_, rfl, setV_read_same s x kk, frame_setV s x kk⟩, ⟨_, rfl, setV_read_same s x _, frame_setV s x _⟩⟩

/-- Settles O22: the register holds the wrapped sum. -/
theorem addImmediateWraps : Obligations.AddImmediateWraps := by
  constructor
  · intro x kk
    exact decode_encode (i := .addKk x kk) rfl
  · intro x kk s
    refine ⟨_, rfl, ?_, frame_setV s x _⟩
    rw [setV_read_same, sumByte_toNat, regOperand]

/-- Settles O23: the register holds the combination, and a bit of a combination is the combination of the bits. -/
theorem bitwiseLogic : Obligations.BitwiseLogic := by
  constructor
  · intro x y
    exact ⟨decode_aluWord (n := 0x1) (by decide) (decode_encode (i := .orVy x y) rfl),
      decode_aluWord (n := 0x2) (by decide) (decode_encode (i := .andVy x y) rfl),
      decode_aluWord (n := 0x3) (by decide) (decode_encode (i := .xorVy x y) rfl)⟩
  · intro x y s
    refine ⟨⟨_, rfl, fun k => ?_, frame_setV s x _⟩, ⟨_, rfl, fun k => ?_, frame_setV s x _⟩,
      ⟨_, rfl, fun k => ?_, frame_setV s x _⟩⟩
    · rw [setV_read_same, BitVec.getLsbD_or, regOperand, regOperand]
    · rw [setV_read_same, BitVec.getLsbD_and, regOperand, regOperand]
    · rw [setV_read_same, BitVec.getLsbD_xor, regOperand, regOperand]

/-! ### Instructions that write VF, then Vx (R186 to R190, R192; D7) -/

/-- The result is Vx in every case; VF keeps the flag unless the result overwrites it (D7). -/
theorem writeFlagThenResult_spec {s : State} {x : RegIx} {flag result flag' : Byte} {n : Nat}
    (hresult : result.toNat = n) (hflag : flag = flag') :
    ∃ t, writeFlagThenResult s x flag result = .next t ∧ t.V[x].toNat = n ∧
      (x ≠ 15 → t.V[(15 : RegIx)] = flag') ∧ FrameExcept (fun p => p = .reg x ∨ p = .reg 15) s t := by
  refine ⟨_, rfl, ?_, fun hx => ?_, frame_flag_result s x flag result⟩
  · rw [setV_read_same, hresult]
  · rw [setV_read, if_neg hx.symm, ← hflag]
    exact setV_read_same s vf flag

theorem carryFlag_eq (a b : Byte) : carryFlag a b = if a.toNat + b.toNat > 255 then 1 else 0 := flagByte_decide _

theorem greaterFlag_eq (a b : Byte) : greaterFlag a b = if a.toNat > b.toNat then 1 else 0 := flagByte_decide _

/-- Settles O24: the sum is written after the carry. -/
theorem addWritesCarry : Obligations.AddWritesCarry := by
  intro x y s
  exact writeFlagThenResult_spec (sumByte_toNat _ _) (carryFlag_eq _ _)

/-- Settles O25: SUBN is SUB with the operands exchanged. -/
theorem subtractWritesStrictGreater : Obligations.SubtractWritesStrictGreater := by
  intro x y s
  exact ⟨writeFlagThenResult_spec (differenceByte_toNat _ _) (greaterFlag_eq _ _),
    writeFlagThenResult_spec (differenceByte_toNat _ _) (greaterFlag_eq _ _)⟩

/-- Settles O26: SHR shifts out bit 0 and SHL bit 7, and neither decodes its y field. -/
theorem shiftsWriteBitShiftedOut : Obligations.ShiftsWriteBitShiftedOut := by
  constructor
  · intro x y
    exact ⟨decode_aluWord (n := 0x6) (by decide) (decode_wordXYN_shr x y),
      decode_aluWord (n := 0xE) (by decide) (decode_wordXYN_shl x y)⟩
  · intro x s
    exact ⟨writeFlagThenResult_spec (shiftRightByte_toNat _) (shiftedRightFlag_bit _),
      writeFlagThenResult_spec (shiftLeftByte_toNat _) (shiftedLeftFlag_bit _)⟩

/-! ### RND (R191, R312) -/

theorem frame_setRng (s : State) (r : RngWord) : FrameExcept (fun p => p = .rng) s (s.setRng r) := by
  intro p hp
  cases p with
  | rng => exact absurd rfl hp
  | _ => rfl

/-- Settles O27: bit `k` of the returned byte is bit `24 + k` of the new state. -/
theorem randomByteAdvancesOnce : Obligations.RandomByteAdvancesOnce := by
  constructor
  · intro x kk
    exact decode_encode (i := .rnd x kk) rfl
  · intro x kk s
    refine ⟨_, execRnd_eq x kk s, nextRng_toNat s.rng, fun k => ?_, ?_⟩
    · rw [setV_read_same, BitVec.getLsbD_and, rngByte_getLsbD, setV_rng, setRng_rng]
    · exact ((frame_setRng s _).mono fun _ hp => .inr hp).trans ((frame_setV _ x _).mono fun _ hp => .inl hp)

end Sys2Proof.Machine

/-! ## The family of spec/43_index_memory.md: the index register and block transfers through it -/

namespace Sys2Proof.Machine

/-! ### Storing a block: LD B,Vx and LD [I],Vx (R67, R223, R224) -/

/-- A checked store inside memory completes, writes its own bytes only and keeps the canonical form. -/
theorem checked_store_completes {s : State} {vs : List Byte} {k : Nat} (hwf : s.mem.wf = true) (hlen : vs.length = k)
    (hrange : s.I.toNat + k ≤ 0x1000) :
    ∃ t, checkRange .memory s.I k (.next (s.setMem (s.mem.writeBytes (indexBase s) vs))) = .next t ∧
      FrameExcept (bytesFrom s.I.toNat k) s t ∧ t.mem.wf = true := by
  subst hlen
  exact ⟨_, checkRange_pass hrange, frame_writeBytes s _ vs, Memory.writeBytes_wf hwf hrange⟩

/-- Settles O31: the three digits are a checked store; outside memory the range check raises. -/
theorem storesDecimalDigits : Obligations.StoresDecimalDigits := by
  intro x s hwf
  constructor
  · intro hrange
    obtain ⟨t, hexec, hframe, htwf⟩ :=
      checked_store_completes (vs := decimalDigits (regOperand s x)) (k := 3) hwf rfl (by omega)
    have hread {k : Nat} (hk : k < 3) : t.mem.read (s.I.toNat + k) = (decimalDigits s.V[x]).getD k 0 :=
      exec_ldBVx_read hwf hexec hk
    obtain ⟨hundreds, tens, ones⟩ := decimalDigits_toNat s.V[x]
    refine ⟨t, hexec, ?_, ?_, ?_, hframe, htwf⟩
    · rw [← hundreds, ← hread (by decide), Nat.add_zero]
    · rw [← tens, ← hread (by decide)]
    · rw [← ones, ← hread (by decide)]
  · intro hrange
    exact checkRange_fail (by decide) (by omega)

/-- Settles O32: the block of registers is a checked store; outside memory the range check raises. -/
theorem storesRegisterBlock : Obligations.StoresRegisterBlock := by
  intro x s hwf
  constructor
  · intro hrange
    obtain ⟨t, hexec, hframe, htwf⟩ := checked_store_completes hwf (registerBlock_length s x) (by omega)
    exact ⟨t, hexec, fun r hr => exec_ldMemVx_read hwf hexec hr, hframe, htwf⟩
  · intro hrange
    exact checkRange_fail (Nat.le_add_left 1 x.val) (by omega)

/-! ### Loading a block: LD Vx,[I] (R225) -/

theorem frame_loadBlock (s : State) (x : RegIx) (base : Nat) :
    FrameExcept (fun p => ∃ r : RegIx, r ≤ x ∧ p = .reg r) s { s with V := loadBlock s.mem base x s.V } := by
  intro p hp
  cases p with
  | reg r =>
    have hr : ¬ r ≤ x := fun hle => hp ⟨r, hle, rfl⟩
    exact (loadBlock_read s.mem base x r s.V).trans (if_neg hr)
  | _ => rfl

/-- Settles O33: the registers up to Vx are the block's; outside memory the range check raises. -/
theorem loadsRegisterBlock : Obligations.LoadsRegisterBlock := by
  intro x s
  constructor
  · intro hrange
    refine ⟨_, checkRange_pass (by omega), fun r hr => ?_, frame_loadBlock s x _⟩
    exact (loadBlock_read s.mem (indexBase s) x r s.V).trans (if_pos hr)
  · intro hrange
    exact checkRange_fail (Nat.le_add_left 1 x.val) (by omega)

/-- Settles O34: the store that completed shows the range to lie in memory, and the load reads what it left there. -/
theorem storeThenLoadRestoresRegisters : Obligations.StoreThenLoadRestoresRegisters := by
  intro x s t hwf hstore u humem huI
  obtain ⟨hrange, _⟩ := checkRange_eq_next hstore
  have hload : u.I.toNat + x.val ≤ 0xFFF := by rw [huI]; omega
  obtain ⟨v, hexec, hread, _⟩ := (loadsRegisterBlock x u).1 hload
  refine ⟨v, hexec, fun r hr => ?_⟩
  calc v.V[r] = u.mem.read (u.I.toNat + r.val) := hread r hr
    _ = t.mem.read (s.I.toNat + r.val) := by rw [humem, huI]
    _ = s.V[r] := exec_ldMemVx_read hwf hstore hr

/-! ### Instructions that write only I (R220 to R222) -/

/-- The layout `m nnn` of an address given as a number. -/
theorem wordNnn_ofNat (m : Nat) {nnn : Nat} (h : nnn < 0x1000) :
    wordNnn m (BitVec.ofNat 16 nnn) = BitVec.ofNat 16 (m * 0x1000 + nnn) := by
  rw [wordNnn, BitVec.toNat_ofNat, Nat.mod_eq_of_lt (a := nnn) (by omega), Nat.mod_eq_of_lt h]

/-- Settles O28. -/
theorem loadIndex : Obligations.LoadIndex := by
  constructor
  · intro nnn h
    have hfits : (Instr.ldI (BitVec.ofNat 16 nnn)).WellFormed :=
      decide_eq_true (by rw [BitVec.toNat_ofNat]; omega)
    exact wordNnn_ofNat 0xA h ▸ decode_encode hfits
  · intro nnn s
    exact ⟨s.setI nnn, rfl, setI_I s nnn, frame_setI s nnn⟩

/-- Settles O29: 16 bits hold a sum that does not pass the guard of INDEX_OVERFLOW. -/
theorem addIndex : Obligations.AddIndex := by
  intro x s
  constructor
  · intro hfits
    refine ⟨_, if_neg (Nat.not_lt.2 hfits), ?_, frame_setI s _⟩
    exact Nat.mod_eq_of_lt (Nat.lt_succ_of_le hfits)
  · intro hover
    exact if_pos hover

/-- RESET leaves the glyphs, 5 bytes each, from FONT_BASE on (R62, R63). -/
theorem resetWith_glyph (seed : RngWord) (d : Fin 16) {h : Nat} (hh : h < 5) :
    (State.resetWith seed).mem.read (fontBase + 5 * d.val + h) = fontData.getD (5 * d.val + h) 0 := by
  rw [Nat.add_assoc]
  exact resetByte_glyph (by omega)

/-- Settles O30: the index check turns Vx into a digit; above 15 it raises. -/
theorem glyphAddressOfDigit : Obligations.GlyphAddressOfDigit := by
  intro x s
  constructor
  · intro hdigit
    obtain ⟨d, hd⟩ : ∃ d : Fin 16, d.val = s.V[x].toNat := ⟨⟨_, Nat.lt_succ_of_le hdigit⟩, rfl⟩
    have hI := glyphAddress_toNat d
    have hbase := fontBase_le
    have hexec : exec (.ldFVx x) s = .next (s.setI (glyphAddress d)) :=
      checkIndex_pass (body := fun digit => .next (s.setI (glyphAddress digit))) d hd
    refine ⟨_, hexec, ?_, ?_, ?_, frame_setI s _⟩
    · rw [setI_I, hI, hd]
    · rw [setI_I, hI]; omega
    · intro seed h hh
      rw [setI_I, hI, ← hd]
      exact resetWith_glyph seed d hh
  · intro habove
    exact exec_eq_fault_iff.2 ⟨.glyphIndex, _, rfl, .inl ⟨habove, rfl, rfl⟩⟩

end Sys2Proof.Machine

/-! ## The family of spec/44_display.md: CLS and DRW -/

namespace Sys2Proof.Machine

/-! ### The display as a part of the state (R29, R251) -/

theorem frame_setDisp (s : State) (d : Display) :
    FrameExcept (fun p => ∃ r c, p = .cell r c) s (s.setDisp d) := by
  intro p hp
  cases p with
  | cell r c => exact absurd ⟨r, c, rfl⟩ hp
  | _ => rfl

theorem Display.eq_of_cell_eq {d e : Display} (h : ∀ r c, d.cell r c = e.cell r c) : d = e :=
  Vector.ext fun r hr => Vector.ext fun c hc => h ⟨r, hr⟩ ⟨c, hc⟩

/-- Settles O37: the last clause is the display's line of O50. -/
theorem clearsDisplay : Obligations.ClearsDisplay := by
  refine ⟨decode_encode (i := .cls) rfl, ?clears, ?others⟩
  case clears =>
    intro s
    exact ⟨s.setDisp Display.blank, rfl, Display.blank_cell, frame_setDisp s _⟩
  case others =>
    intro i s t hcls hdrw h
    obtain ⟨_, _, _, _, _, _, _, hdisp, _⟩ := eachRegisterHasItsWriters i s t h
    by_contra hne
    rcases hdisp hne with e | ⟨x, y, n, e⟩
    · exact hcls e
    · exact hdrw x y n e

/-! ### The cells under a sprite (R252) -/

section
variable {s t u : State} {x y : RegIx} {n : Nat}

/-- `SpritePixel` in the terms of the drawing loops. -/
theorem spritePixel_iff {r : Fin 32} {c : Fin 64} : SpritePixel s x y n r c ↔
    ∃ h p, h < n ∧ p < 8 ∧ drawLine s.V[y] h = r ∧ drawColumn s.V[x] p = c ∧
      spriteBit (s.mem.read (s.I.toNat + h)) p = true := by
  simp only [SpritePixel, Fin.ext_iff, drawLine, drawColumn, Fin.val_ofNat, spriteBit, eq_comm]

/-- Every 1-bit of the sprite falls on some cell. -/
theorem exists_spritePixel_iff : (∃ r c, SpritePixel s x y n r c) ↔
    ∃ h p, h < n ∧ p < 8 ∧ (s.mem.read (s.I.toNat + h)).getLsbD (7 - p) = true := by
  simp only [spritePixel_iff]
  constructor
  · rintro ⟨_, _, h, p, hh, hp, _, _, hbit⟩
    exact ⟨h, p, hh, hp, hbit⟩
  · rintro ⟨h, p, hh, hp, hbit⟩
    exact ⟨_, _, h, p, hh, hp, rfl, rfl, hbit⟩

/-- The bit the sprite of `DRW Vx,Vy,n` draws at a cell. -/
def spriteCell (s : State) (x y : RegIx) (n : Nat) (r : Fin 32) (c : Fin 64) : Bool :=
  spriteAt s.V[x] s.V[y] 0 (s.mem.readBytes s.I.toNat n) r c

/-- At most one row and one column of the sprite fall on a cell: `lineOffset` and `columnOffset`. -/
theorem spriteCell_iff (hn : n < 16) {r : Fin 32} {c : Fin 64} :
    spriteCell s x y n r c = true ↔ SpritePixel s x y n r c := by
  simp only [spriteCell, spriteAt, byteBit, Bool.and_eq_true, decide_eq_true_eq, Memory.readBytes_length,
    spritePixel_iff]
  constructor
  · rintro ⟨hh, hp, hbit⟩
    rw [Memory.readBytes_getD _ hh] at hbit
    have hline := (lineOffset_eq (vy := s.V[y]) (h := 0) (r := r) (by omega)).1 rfl
    rw [Nat.zero_add] at hline
    exact ⟨_, _, hh, hp, hline, (columnOffset_eq (by omega)).1 rfl, hbit⟩
  · rintro ⟨h, p, hh, hp, hline, hcolumn, hbit⟩
    have hrow : lineOffset s.V[y] 0 r = h := (lineOffset_eq (by omega)).2 (by rwa [Nat.zero_add])
    have hcol : columnOffset s.V[x] c = p := (columnOffset_eq (by omega)).2 hcolumn
    rw [hrow, hcol, Memory.readBytes_getD _ hh]
    exact ⟨hh, hp, hbit⟩

/-! ### What DRW does (R252) -/

/-- Some 1-bit of the sprite meets a cell that is 1. -/
def SpriteCollides (s : State) (x y : RegIx) (n : Nat) : Prop :=
  ∃ r c, SpritePixel s x y n r c ∧ s.disp.cell r c = true

/-- `t` is `s` with the sprite of `DRW Vx,Vy,n` drawn. -/
structure Drawn (s : State) (x y : RegIx) (n : Nat) (t : State) : Prop where
  cell : ∀ r c, t.disp.cell r c = (s.disp.cell r c ^^ spriteCell s x y n r c)
  flag_one : t.V[(15 : RegIx)] = 1 ↔ SpriteCollides s x y n
  flag_zero : t.V[(15 : RegIx)] = 0 ↔ ¬ SpriteCollides s x y n
  frame : FrameExcept (fun p => p = .reg 15 ∨ ∃ r c, p = .cell r c) s t

/-- The display and the collision the drawing loops leave. -/
def spriteDrawn (s : State) (x y : RegIx) (n : Nat) : Display × Bool :=
  drawRows s.V[x] s.V[y] 0 (s.mem.readBytes s.I.toNat n) (s.disp, false)

theorem spriteDrawn_cell (hn : n < 16) (r : Fin 32) (c : Fin 64) :
    (spriteDrawn s x y n).1.cell r c = (s.disp.cell r c ^^ spriteCell s x y n r c) := by
  refine (drawRows_spec _ _ _ _ _ ?_).1 r c
  rw [Memory.readBytes_length]; omega

theorem spriteDrawn_collided (hn : n < 16) : (spriteDrawn s x y n).2 = true ↔ SpriteCollides s x y n := by
  rw [spriteDrawn, (drawRows_spec _ _ _ _ _ (by rw [Memory.readBytes_length]; omega)).2]
  simp only [SpriteCollides, spritePixel_iff, Memory.readBytes_length, Bool.false_or, List.any_eq_true,
    List.mem_range, Bool.and_eq_true, Nat.zero_add]
  constructor
  · rintro ⟨h, hh, p, hp, hbit, hlit⟩
    rw [Memory.readBytes_getD _ hh] at hbit
    exact ⟨_, _, ⟨h, p, hh, hp, rfl, rfl, hbit⟩, hlit⟩
  · rintro ⟨_, _, ⟨h, p, hh, hp, rfl, rfl, hbit⟩, hlit⟩
    exact ⟨h, hh, p, hp, by rwa [Memory.readBytes_getD _ hh], hlit⟩

theorem flagByte_eq_one {b : Bool} : flagByte b = 1 ↔ b = true := by cases b <;> decide

theorem flagByte_eq_zero {b : Bool} : flagByte b = 0 ↔ ¬ b = true := by cases b <;> decide

theorem drawn_spriteDrawn (hn : n < 16) :
    Drawn s x y n ((s.setDisp (spriteDrawn s x y n).1).setVF (collisionFlag (spriteDrawn s x y n).2)) where
  cell := spriteDrawn_cell hn
  flag_one := by
    rw [← spriteDrawn_collided hn, ← flagByte_eq_one]
    exact Eq.congr_left (setV_read_same _ vf _)
  flag_zero := by
    rw [← spriteDrawn_collided hn, ← flagByte_eq_zero]
    exact Eq.congr_left (setV_read_same _ vf _)
  frame := ((frame_setDisp s _).mono fun _ => .inr).trans ((frame_setV _ vf _).mono fun _ => .inl)

/-- DRW is the range check and then the drawing (R252). -/
theorem exec_drw_eq : exec (.drw x y n) s = checkRange .memory s.I n
    (.next ((s.setDisp (spriteDrawn s x y n).1).setVF (collisionFlag (spriteDrawn s x y n).2))) := rfl

/-- A completed DRW drew its sprite. -/
theorem drawn_of_exec (hn : n < 16) (h : exec (.drw x y n) s = .next t) : Drawn s x y n t := by
  obtain ⟨_, hdraw⟩ := checkRange_eq_next (exec_drw_eq.symm.trans h)
  cases hdraw
  exact drawn_spriteDrawn hn

/-- DRW completes when it draws nothing or its rows lie inside memory. -/
theorem exec_drw_completes (hrange : n = 0 ∨ s.I.toNat + n ≤ 0x1000) : ∃ t, exec (.drw x y n) s = .next t := by
  rcases hrange with rfl | hfits
  · exact ⟨_, exec_drw_eq.trans checkRange_zero⟩
  · exact ⟨_, exec_drw_eq.trans (checkRange_pass hfits)⟩

theorem Drawn.cell_of_pixel (d : Drawn s x y n t) (hn : n < 16) {r : Fin 32} {c : Fin 64}
    (h : SpritePixel s x y n r c) : t.disp.cell r c = !s.disp.cell r c := by
  rw [d.cell, (spriteCell_iff hn).2 h, Bool.xor_true]

theorem Drawn.cell_of_not_pixel (d : Drawn s x y n t) (hn : n < 16) {r : Fin 32} {c : Fin 64}
    (h : ¬ SpritePixel s x y n r c) : t.disp.cell r c = s.disp.cell r c := by
  rw [d.cell, Bool.eq_false_iff.2 (mt (spriteCell_iff hn).1 h), Bool.xor_false]

/-! ### Collisions and the second draw (R253) -/

/-- Only an inverted cell can go dark. -/
theorem Drawn.collides_iff_darkens (d : Drawn s x y n t) (hn : n < 16) :
    SpriteCollides s x y n ↔ ∃ r c, s.disp.cell r c = true ∧ t.disp.cell r c = false := by
  constructor
  · rintro ⟨r, c, hpixel, hlit⟩
    exact ⟨r, c, hlit, by rw [d.cell_of_pixel hn hpixel, hlit, Bool.not_true]⟩
  · rintro ⟨r, c, hlit, hdark⟩
    refine ⟨r, c, by_contra fun hpixel => ?_, hlit⟩
    rw [d.cell_of_not_pixel hn hpixel, hlit] at hdark
    cases hdark

/-- The same sprite at the same place. -/
structure SameSprite (s u : State) (x y : RegIx) : Prop where
  mem : u.mem = s.mem
  index : u.I = s.I
  column : u.V[x] = s.V[x]
  line : u.V[y] = s.V[y]

theorem SameSprite.spriteCell_eq (h : SameSprite s u x y) : spriteCell u x y n = spriteCell s x y n := by
  funext r c
  rw [spriteCell, spriteCell, h.mem, h.index, h.column, h.line]

theorem SameSprite.spritePixel_iff (h : SameSprite s u x y) {r : Fin 32} {c : Fin 64} :
    SpritePixel u x y n r c ↔ SpritePixel s x y n r c := by
  rw [SpritePixel, SpritePixel, h.mem, h.index, h.column, h.line]

/-- XOR with the same sprite twice is the identity. -/
theorem Drawn.twice (d : Drawn s x y n t) (hu : u.disp = t.disp) (same : SameSprite s u x y) {v : State}
    (d' : Drawn u x y n v) : v.disp = s.disp := by
  refine Display.eq_of_cell_eq fun r c => ?_
  rw [d'.cell, hu, d.cell, same.spriteCell_eq, Bool.xor_assoc, Bool.xor_self, Bool.xor_false]

/-- The second draw collides where the first lit a cell. -/
theorem Drawn.collides_again_iff (d : Drawn s x y n t) (hn : n < 16) (hu : u.disp = t.disp)
    (same : SameSprite s u x y) :
    SpriteCollides u x y n ↔ ∃ r c, SpritePixel s x y n r c ∧ s.disp.cell r c = false := by
  refine exists_congr fun r => exists_congr fun c => ?_
  rw [same.spritePixel_iff, hu]
  refine and_congr_right fun hpixel => ?_
  rw [d.cell_of_pixel hn hpixel, Bool.not_eq_true']

/-- Without a collision every 1-bit of the sprite lies on a cell that is 0. -/
theorem exists_dark_pixel_iff (h : ¬ SpriteCollides s x y n) :
    (∃ r c, SpritePixel s x y n r c ∧ s.disp.cell r c = false) ↔ ∃ r c, SpritePixel s x y n r c := by
  refine exists_congr fun r => exists_congr fun c => and_iff_left_of_imp fun hpixel => ?_
  exact Bool.eq_false_iff.2 fun hlit => h ⟨r, c, hpixel, hlit⟩

end

/-- Settles O38. -/
theorem drawInvertsSpriteCells : Obligations.DrawInvertsSpriteCells := by
  intro x y n s hn hrange
  obtain ⟨t, hexec⟩ : ∃ t, exec (.drw x y n) s = .next t := exec_drw_completes (by omega)
  have d := drawn_of_exec hn hexec
  exact ⟨t, hexec, fun _ _ => d.cell_of_pixel hn, fun _ _ => d.cell_of_not_pixel hn, d.flag_one.2,
    d.flag_zero.2, d.frame⟩

/-- Settles O39: the display is XORed with one and the same sprite twice. -/
theorem drawTwiceRestoresDisplay : Obligations.DrawTwiceRestoresDisplay := by
  intro x y n s t hn hexec
  have d := drawn_of_exec hn hexec
  refine ⟨d.flag_one.trans (d.collides_iff_darkens hn), fun u hu hmem hI hx hy => ?_⟩
  obtain ⟨hrange, _⟩ := checkRange_eq_next hexec
  obtain ⟨v, hagain⟩ : ∃ v, exec (.drw x y n) u = .next v := exec_drw_completes (hI ▸ hrange)
  have d' := drawn_of_exec hn hagain
  have same : SameSprite s u x y := ⟨hmem, hI, hx, hy⟩
  have hflag := d'.flag_one.trans (d.collides_again_iff hn hu same)
  refine ⟨v, hagain, d.twice hu same d', hflag, fun hzero => ?_⟩
  exact hflag.trans ((exists_dark_pixel_iff (d.flag_zero.1 hzero)).trans exists_spritePixel_iff)

/-! ### The document's scenario -/

/-- The cells of glyph '0' at the origin, column first. -/
def glyphZeroCells : List (Nat × Nat) :=
  [(0, 0), (1, 0), (2, 0), (3, 0), (0, 1), (3, 1), (0, 2), (3, 2), (0, 3), (3, 3), (0, 4), (1, 4), (2, 4), (3, 4)]

/-- The 1-bits of the five bytes of glyph '0' (R63). -/
theorem glyphZero_bit_iff : ∀ h < 5, ∀ p < 8,
    (fontData.getD h 0).getLsbD (7 - p) = true ↔ (p, h) ∈ glyphZeroCells := by decide

theorem glyphZeroCells_bound {c r : Nat} (h : (c, r) ∈ glyphZeroCells) : r < 5 ∧ c < 8 :=
  (by decide : ∀ q ∈ glyphZeroCells, q.2 < 5 ∧ q.1 < 8) _ h

/-- Glyph '0' drawn from (0,0) does not wrap, so row `h` and column `p` of it fall on line `h` and column `p`. -/
theorem spritePixel_glyphZero_iff {s : State} (hx : s.V[(0 : RegIx)] = 0) (hy : s.V[(1 : RegIx)] = 0)
    (hfont : ∀ h < 5, s.mem.read (s.I.toNat + h) = fontData.getD h 0) {r : Fin 32} {c : Fin 64} :
    SpritePixel s 0 1 5 r c ↔ (c.val, r.val) ∈ glyphZeroCells := by
  rw [SpritePixel, hx, hy]
  constructor
  · rintro ⟨h, p, hh, hp, hr, hc, hbit⟩
    have hline : r.val = h := hr.trans (by simp; omega)
    have hcolumn : c.val = p := hc.trans (by simp; omega)
    rw [hfont h hh] at hbit
    rw [hline, hcolumn]
    exact (glyphZero_bit_iff h hh p hp).1 hbit
  · intro hmem
    obtain ⟨hr, hc⟩ := glyphZeroCells_bound hmem
    refine ⟨r, c, hr, hc, by simp; omega, by simp; omega, ?_⟩
    rw [hfont r hr]
    exact (glyphZero_bit_iff r hr c hc).2 hmem

/-- Settles O40: on a clear display the lit cells are those under the sprite, and none collides. -/
theorem glyphZeroIsDrawn : Obligations.GlyphZeroIsDrawn := by
  intro seed
  have hV (x : RegIx) : (State.resetWith seed).V[x] = 0 := by simp [State.resetWith]
  obtain ⟨t, hload, _, hinside, hglyph, hframe⟩ :=
    (glyphAddressOfDigit 0 (State.resetWith seed)).1 (by rw [hV]; decide)
  have hVt (x : RegIx) : t.V[x] = 0 := (hframe (.reg x) Part.noConfusion).trans (hV x)
  have hblank (r : Fin 32) (c : Fin 64) : t.disp.cell r c = false :=
    (hframe (.cell r c) Part.noConfusion).trans (Display.blank_cell r c)
  have hfont (h : Nat) (hh : h < 5) : t.mem.read (t.I.toNat + h) = fontData.getD h 0 := by
    refine (hframe (.byte _) Part.noConfusion).trans ((hglyph seed h hh).trans ?_)
    rw [hV]; simp
  obtain ⟨u, hdraw⟩ : ∃ u, exec (.drw 0 1 5) t = .next u := exec_drw_completes (by omega)
  have d := drawn_of_exec (by decide) hdraw
  refine ⟨t, u, hload, hdraw, d.flag_zero.2 ?_, fun r c => ?_⟩
  · rintro ⟨r, c, _, hlit⟩
    exact Bool.noConfusion ((hblank r c).symm.trans hlit)
  · rw [d.cell, hblank, Bool.false_xor, spriteCell_iff (by decide)]
    exact spritePixel_glyphZero_iff (hVt 0) (hVt 1) hfont

end Sys2Proof.Machine

/-! ## The family of spec/45_timer_key.md: keys, timers and the wait -/

namespace Sys2Proof.Machine

/-! ### LD Vx,K as an instruction and as a cycle (R273, R274) -/

theorem exists_leastPressed {key : Vector Bool 16} (h : ∃ k : KeyIx, key[k] = true) :
    ∃ k, leastPressed key = some k := by
  obtain ⟨k, hk⟩ := h
  cases hl : leastPressed key with
  | none => exact Bool.noConfusion (hk.symm.trans (leastPressed_none hl k))
  | some j => exact ⟨j, rfl⟩

theorem exec_ldVxK_pressed {s : State} {k : KeyIx} (x : RegIx) (h : leastPressed s.key = some k) :
    exec (.ldVxK x) s = .next (s.setV x (keyByte k)) := by simp only [exec, execLdVxK, h]

theorem exec_ldVxK_unpressed {s : State} (x : RegIx) (h : leastPressed s.key = none) :
    exec (.ldVxK x) s = .next ((s.setWait (some x)).setPc (s.pc - 2)) := by simp only [exec, execLdVxK, h]

section
variable {s : State} {x : RegIx}

/-- A cycle of LD Vx,K that finds a key is over at once. -/
theorem step_ldVxK_pressed {k : KeyIx} (hw : s.wait = none) (hp : s.pc.toNat < 0xFFF)
    (hd : decode (fetchWord s) = .instr (.ldVxK x)) (h : leastPressed s.key = some k) :
    step s = .next ((afterFetch s).setV x (keyByte k)) := by
  rw [step_instr hw hp hd, exec_ldVxK_pressed (s := afterFetch s) x h, reportFault_next]

/-- A cycle of LD Vx,K that finds no key changes `wait` alone: it takes back the pc that the fetch moved. -/
theorem step_ldVxK_unpressed (hw : s.wait = none) (hp : s.pc.toNat < 0xFFF)
    (hd : decode (fetchWord s) = .instr (.ldVxK x)) (h : leastPressed s.key = none) :
    step s = .next (s.setWait (some x)) := by
  have hback : (afterFetch s).pc - 2 = s.pc := BitVec.add_sub_cancel s.pc 2
  rw [step_instr hw hp hd, exec_ldVxK_unpressed (s := afterFetch s) x h, reportFault_next, hback]
  rfl

/-- The wait step that ends a wait leaves what LD Vx,K leaves when it finds the same key at once. -/
theorem waitStep_setWait_pressed {k : KeyIx} (hw : s.wait = none) (h : leastPressed s.key = some k) :
    waitStep x (s.setWait (some x)) = (afterFetch s).setV x (keyByte k) := by
  rw [waitStep_pressed (s := s.setWait (some x)) x h, ← hw]
  rfl

end

/-- Settles O44: the first cycle sets `wait`, the later ones change nothing, and the one with a key pressed does what LD Vx,K
does. -/
theorem waitHasNetEffectOfOneLoad : Obligations.WaitHasNetEffectOfOneLoad := by
  intro x s n pressed hw hp hd hnone hsome
  have hunpressed := leastPressed_eq_none hnone
  obtain ⟨k, hk⟩ := exists_leastPressed hsome
  have hbegin : core.step s = .next (s.setWait (some x)) := step_ldVxK_unpressed hw (by omega) hd hunpressed
  have hpoll : step (s.setWait (some x)) = .next (s.setWait (some x)) := by
    rw [step_waiting (setWait_wait s (some x)), waitStep_unpressed (s := s.setWait (some x)) x hunpressed]
  refine ⟨s.setWait (some x), ?_, (afterFetch { s with key := pressed }).setV x (keyByte k), ?_, ?_⟩
  · simp only [Host.Core.run, hbegin]
    exact run_of_step_self hpoll n
  · rw [← waitStep_setWait_pressed (s := { s with key := pressed }) hw hk]
    exact step_waiting rfl
  · exact step_ldVxK_pressed (s := { s with key := pressed }) hw (Nat.lt_succ_of_le hp) hd hk

/-- Settles O42: the two ways of LD Vx,K. -/
theorem waitForKeyBegins : Obligations.WaitForKeyBegins := by
  intro x s
  constructor
  · intro k hk hlow
    refine ⟨_, exec_ldVxK_pressed x (leastPressed_eq_some hk hlow), ?_, frame_setV s x _⟩
    rw [setV_read_same, keyByte_toNat]
  · intro hnone
    refine ⟨_, exec_ldVxK_unpressed x (leastPressed_eq_none hnone), rfl, rfl, ?_⟩
    exact ((frame_setWait _ _).mono fun _ hp => .inl hp).trans ((frame_setPc _ _).mono fun _ hp => .inr hp)

/-! ### SKP and SKNP (R270, R271) -/

theorem skipIf_pc (s : State) (c : Bool) : (s.skipIf c).pc = if c then s.pc + 2 else s.pc := by
  cases c <;> rfl

theorem skipIf_not_pc (s : State) (c : Bool) : (s.skipIf (!c)).pc = if c then s.pc else s.pc + 2 := by
  cases c <;> rfl

/-- Settles O41: the index check turns Vx into a key; above 15 it raises. -/
theorem keySkips : Obligations.KeySkips := by
  intro x s
  constructor
  · intro k hk
    have hskp : exec (.skp x) s = .next (s.skipIf s.key[k]) :=
      checkIndex_pass (body := fun j => .next (s.skipIf s.key[j])) k hk
    have hsknp : exec (.sknp x) s = .next (s.skipIf (!s.key[k])) :=
      checkIndex_pass (body := fun j => .next (s.skipIf (!s.key[j]))) k hk
    exact ⟨⟨_, hskp, skipIf_pc s _, frame_skipIf s _⟩, ⟨_, hsknp, skipIf_not_pc s _, frame_skipIf s _⟩⟩
  · intro habove
    exact ⟨exec_eq_fault_iff.2 ⟨.keyIndex, _, rfl, .inl ⟨habove, rfl, rfl⟩⟩,
      exec_eq_fault_iff.2 ⟨.keyIndex, _, rfl, .inl ⟨habove, rfl, rfl⟩⟩⟩

/-! ### The timer loads (R272, R275, R276) -/

/-- A word `Fxkk` summed with its low byte first is the word of that layout. -/
theorem decode_timerWord {x : RegIx} {kk : Byte} {i : Instr} (h : decode (wordXKk 0xF x kk) = .instr i) :
    decode (BitVec.ofNat 16 (0xF000 + kk.toNat + x.val * 0x100)) = .instr i := by
  rw [Nat.add_right_comm]
  exact h

theorem frame_setDT (s : State) (b : Byte) : FrameExcept (fun p => p = .dt) s (s.setDT b) := by
  intro p hp
  cases p with
  | dt => exact absurd rfl hp
  | _ => rfl

/-- Settles O45: the clause on DT's writers is the delay timer's line of O50. -/
theorem timerLoads : Obligations.TimerLoads := by
  refine ⟨?encodings, ?writers, ?meanings⟩
  case encodings =>
    intro x
    exact ⟨decode_timerWord (kk := 0x07) (decode_encode (i := .ldVxDt x) rfl),
      decode_timerWord (kk := 0x15) (decode_encode (i := .ldDtVx x) rfl),
      decode_timerWord (kk := 0x18) (decode_encode (i := .ldStVx x) rfl)⟩
  case writers =>
    intro i s t h hne
    obtain ⟨_, _, _, _, hDT, _⟩ := eachRegisterHasItsWriters i s t h
    by_contra hchanged
    obtain ⟨x, hx⟩ := hDT hchanged
    exact hne x hx
  case meanings =>
    intro x s
    exact ⟨⟨_, rfl, setV_read_same s x s.DT, frame_setV s x s.DT⟩,
      ⟨_, rfl, setDT_DT s _, frame_setDT s _⟩,
      ⟨_, rfl, setST_ST s _, frame_setST s s.ST _⟩⟩

end Sys2Proof.Machine

/-! ## The family of spec/60_exceptions.md: the outcomes of a cycle, the table of causes, and the host's inputs -/

namespace Sys2Proof.Machine

/-! ### Nothing is refused (R300)

No meaning answers a refusal, so an instruction completes or faults, and so does a cycle. -/

theorem checkRange_ne_refused {σ : Type} {cause : Cause} {a : Word} {k : Nat} {t : σ} {r : Refusal} :
    checkRange cause a k (.next t) ≠ .refused r := by
  rcases checkRange_cases cause a k (.next t) with ⟨_, e⟩ | ⟨_, _, e⟩ <;> rw [e] <;> exact nofun

theorem checkIndex_ne_refused {cause : Cause} {v : Byte} {t : Fin 16 → State} {r : Refusal} :
    checkIndex cause v (fun d => .next (t d)) ≠ .refused r := by
  rcases checkIndex_cases cause v (fun d => .next (t d)) with ⟨d, _, e⟩ | ⟨_, e⟩ <;> rw [e] <;> exact nofun

/-- Every arm of `exec` is a meaning, and none refuses. -/
theorem exec_ne_refused {i : Instr} {s : State} {r : Refusal} : exec i s ≠ .refused r := by
  cases i with
  | drw | ldBVx | ldMemVx | ldVxMem => exact checkRange_ne_refused
  | skp x => exact checkIndex_ne_refused (t := fun k => s.skipIf s.key[k])
  | sknp x => exact checkIndex_ne_refused (t := fun k => s.skipIf (!s.key[k]))
  | ldFVx => exact checkIndex_ne_refused (t := fun d => s.setI (glyphAddress d))
  | addIVx x =>
    change execAddIVx x s ≠ _
    unfold execAddIVx
    split <;> exact nofun
  | ret =>
    change execRet s ≠ _
    rcases execRet_cases s with ⟨_, e⟩ | ⟨_, _, _, e⟩ | ⟨_, e⟩ <;> rw [e] <;> exact nofun
  | call nnn =>
    change execCall nnn s ≠ _
    rcases execCall_cases nnn s with ⟨_, _, e⟩ | ⟨_, e⟩ <;> rw [e] <;> exact nofun
  | ldVxK x =>
    change execLdVxK x s ≠ _
    unfold execLdVxK
    split <;> exact nofun
  | _ => exact nofun

/-- An instruction that raises no cause completes. -/
theorem exec_completes {i : Instr} {s : State} (h : ∀ f, exec i s ≠ .fault f) : ∃ t, exec i s = .next t := by
  cases hexec : exec i s with
  | next t => exact ⟨t, rfl⟩
  | fault f => exact absurd hexec (h f)
  | refused r => exact absurd hexec exec_ne_refused

/-! ### The table of causes and the fault record (R301, R304) -/

/-- With SP in its range (R24) no CALL or RET stops by log 14. -/
theorem not_stackPointerOut {i : Instr} {s : State} (h : s.SP.toNat ≤ 15) : ¬ StackPointerOut i s := fun hout =>
  absurd hout.1 (Nat.not_lt.mpr h)

/-- Settles O11: the table decides the faults, and without one the instruction completes. -/
theorem faultCausesAreThoseOfTheTable : Obligations.FaultCausesAreThoseOfTheTable := by
  intro i s hSP
  have htable : ∀ f, exec i s = .fault f ↔ ∃ cause value, f = .raised cause value ∧ FaultRow i s cause value :=
    fun f => exec_eq_fault_iff_faultRow (not_stackPointerOut hSP)
  refine ⟨htable, fun hnone => exec_completes fun f hf => ?_⟩
  obtain ⟨cause, value, _, hrow⟩ := (htable f).mp hf
  exact hnone cause value hrow

/-- Settles O10: the cycle reports what the instruction raises, and the fetch leaves SP in its range. -/
theorem faultReportIsExact : Obligations.FaultReportIsExact := by
  intro s f hSP
  have hraises : ∀ i cause value, Raises i (afterFetch s) cause value ↔ FaultRow i (afterFetch s) cause value :=
    fun _ _ _ => raises_iff_faultRow (not_stackPointerOut hSP)
  have hinside : s.pc.toNat < 0xFFF ↔ s.pc.toNat ≤ 0xFFE := Nat.lt_succ_iff
  simp only [step_eq_fault_iff, hraises, hinside, ge_iff_le]

/-! ### The one outcome of a cycle (R300) -/

/-- Every cycle moves on with Success or UnsupportedOpcode, for the reason given, or faults. -/
theorem runCycle_cases (s : State) :
    (∃ t, runCycle s = .next (.success, t) ∧ (s.wait ≠ none ∨ ∃ i, decode (fetchWord s) = .instr i)) ∨
    (runCycle s = .next (.unsupportedOpcode (fetchWord s) s.pc, afterFetch s) ∧ s.wait = none ∧
      decode (fetchWord s) = .unsupported (fetchWord s)) ∨
    ∃ f, step s = .fault f := by
  rcases hw : s.wait with _ | x
  · by_cases hp : s.pc.toNat < 0xFFF
    · cases hd : decode (fetchWord s) with
      | unsupported u =>
        obtain rfl := decode_unsupported_self hd
        exact .inr (.inl ⟨runCycle_unsupported hw hp hd, rfl, rfl⟩)
      | instr i =>
        have hrun := runCycle_instr hw hp hd
        have hstep := step_instr hw hp hd
        cases hexec : exec i (afterFetch s) with
        | next t => exact .inl ⟨t, by rw [hrun, hexec, reportFault_next, returnSuccess_next], .inr ⟨i, rfl⟩⟩
        | fault f =>
          obtain ⟨cause, value, rfl, _⟩ := exec_eq_fault_iff.mp hexec
          exact .inr (.inr ⟨_, by rw [hstep, hexec, reportFault_raised]⟩)
        | refused r => exact absurd hexec exec_ne_refused
    · exact .inr (.inr ⟨_, step_fetch_fault hw (Nat.not_lt.mp hp)⟩)
  · exact .inl ⟨_, runCycle_waiting hw, .inl (Option.some_ne_none x)⟩

/-- Settles O9: the ways through a cycle, each with the outcome it returns. -/
theorem cycleReturnsOneOutcome : Obligations.CycleReturnsOneOutcome := by
  intro s
  rcases runCycle_cases s with ⟨t, hrun, hwhy⟩ | ⟨hrun, hw, hd⟩ | ⟨f, hf⟩
  · obtain ⟨hcycle, hstep⟩ := cycle_of_runCycle_next hrun
    exact ⟨_, t, hcycle, .inr (.inl ⟨rfl, hstep, hwhy⟩)⟩
  · obtain ⟨hcycle, hstep⟩ := cycle_of_runCycle_next hrun
    exact ⟨_, _, hcycle, .inr (.inr ⟨rfl, hstep, hw, hd⟩)⟩
  · exact ⟨_, s, cycle_of_step_fault hf, .inl ⟨f, rfl, hf, rfl⟩⟩

/-! ### The host's inputs (R309 to R311, R254) -/

/-- One tick lowers a timer by one, floored at 0 (R310). -/
theorem tickTimer_toNat (b : Byte) : (tickTimer b).toNat = b.toNat - 1 := by
  unfold tickTimer
  split <;> bv_omega

@[simp] theorem tick_DT_toNat (s : State) : s.tick.DT.toNat = s.DT.toNat - 1 := tickTimer_toNat s.DT

@[simp] theorem tick_ST_toNat (s : State) : s.tick.ST.toNat = s.ST.toNat - 1 := tickTimer_toNat s.ST

theorem frame_tick (s : State) : FrameExcept (fun p => p = .dt ∨ p = .st) s s.tick := by
  have hDT := frame_setDT s (tickTimer s.DT)
  have hST := frame_setST (s.setDT (tickTimer s.DT)) s.ST (tickTimer s.ST)
  exact (hDT.mono fun _ => .inl).trans (hST.mono fun _ => .inr)

theorem frame_setKey (s : State) (k : KeyIx) (b : Bool) : FrameExcept (fun p => p = .key k) s (s.setKey k b) := by
  intro p hp
  cases p with
  | key j =>
    have hne : j ≠ k := fun e => hp (congrArg Part.key e)
    simp only [Part.Same, setKey_key, key_set, if_neg hne]
  | _ => rfl

/-- The host alone writes the key flags (R30): no cycle does. -/
theorem step_key {s t : State} (h : step s = .next t) : t.key = s.key := by
  rcases step_next_cases h with ⟨x, _, rfl⟩ | ⟨_, _, _, rfl⟩ | ⟨i, _, _, _, hexec⟩
  · cases hkey : leastPressed s.key with
    | none => rw [waitStep_unpressed x hkey]
    | some k => rw [waitStep_pressed x hkey]; rfl
  · rfl
  · obtain ⟨_, _, _, _, _, _, _, _, hkey, _⟩ := eachRegisterHasItsWriters i (afterFetch s) t hexec
    exact hkey

/-- Settles O47. -/
theorem hostInputsWriteOnlyTheirPart : Obligations.HostInputsWriteOnlyTheirPart := by
  refine ⟨?tick, ?keySet, fun _ _ => step_key, fun _ _ => rfl⟩
  case tick => exact fun s _ => ⟨s.tick, rfl, tick_DT_toNat s, tick_ST_toNat s, frame_tick s⟩
  case keySet =>
    intro s _ k b
    refine ⟨s.keySet k b, rfl, ?_, frame_setKey s k b⟩
    exact (key_set s.key k k b).trans (if_pos rfl)

/-- Settles O48, by induction on the ticks: the first one is `frame_tick`, and the rest start from its state. -/
theorem ticksSaturateAtZero : Obligations.TicksSaturateAtZero := by
  intro s k
  induction k generalizing s with
  | zero => exact ⟨s, rfl, rfl, rfl, FrameExcept.refl _ s⟩
  | succ k ih =>
    obtain ⟨t, hrest, hDT, hST, hframe⟩ := ih s.tick
    refine ⟨t, ?_, ?_, ?_, (frame_tick s).trans hframe⟩
    · simp only [List.replicate_succ, Session.performAll, Session.perform, hrest]
    · rw [hDT, tick_DT_toNat]; omega
    · rw [hST, tick_ST_toNat]; omega

end Sys2Proof.Machine

/-! ## The family of spec/70_reset_and_hazards.md: reset values, LOAD, and any interleaving of host operations -/

namespace Sys2Proof.Machine

/-! ### Reset (R350, R357) -/

/-- Settles O53: SEED is one of the seeds. -/
theorem resetMeetsInvariant : Obligations.ResetMeetsInvariant := ⟨State.resetWith_inv _, State.resetWith_inv⟩

/-- With no cell listed, memory reads as RESET left it. -/
theorem resetWith_read (seed : RngWord) (a : Nat) : (State.resetWith seed).mem.read a = resetByte a := rfl

/-- Settles O56: the reset contents of memory are `resetByte`'s two cases, and the vectors are constant. -/
theorem resetValues : Obligations.ResetValues := by
  refine ⟨rfl, fun seed => ⟨?glyphs, ?elsewhere, ?fontBelowProgram, rfl, rfl, rfl, rfl, rfl, rfl, rfl, ?V, ?stack, ?key,
    ?disp⟩⟩
  case glyphs => exact fun k hk => (resetWith_read seed _).trans (resetByte_glyph hk)
  case elsewhere => exact fun a _ ha => (resetWith_read seed a).trans (resetByte_elsewhere ha)
  case fontBelowProgram => have := fontBase_le; omega
  case V => exact fun r => Vector.getElem_replicate r.isLt
  case stack => exact fun j => Vector.getElem_replicate j.isLt
  case key => exact fun k => Vector.getElem_replicate k.isLt
  case disp => exact Display.blank_cell

theorem resetWith_pc (seed : RngWord) : (State.resetWith seed).pc.toNat = 0x200 := rfl

/-- The program region is zero after RESET, and so is the first word fetched (R357). -/
theorem fetchWord_resetWith (seed : RngWord) : fetchWord (State.resetWith seed) = 0 := by
  have hprogram : ∀ a, 0x200 ≤ a → (State.resetWith seed).mem.read a = 0 := fun a ha =>
    (resetWith_read seed a).trans (resetByte_program ha)
  apply fetchWord_eq
  rw [hprogram _ (by rw [resetWith_pc]), hprogram _ (by rw [resetWith_pc]; decide)]
  rfl

/-- Settles O60: the zero word is in no row of the table, so the cycle passes over it. -/
theorem unloadedCoreReportsZeroWord : Obligations.UnloadedCoreReportsZeroWord := by
  intro seed
  have hzero : decode (0 : Word) = .unsupported 0 := by decide
  have hd : decode (fetchWord (State.resetWith seed)) = .unsupported 0 := by rw [fetchWord_resetWith, hzero]
  have hpc : (State.resetWith seed).pc.toNat < 0xFFF := by rw [resetWith_pc]; decide
  exact (cycle_of_runCycle_next (runCycle_unsupported rfl hpc hd)).symm

/-! ### LOAD under the boot protocol (R353 to R355; D22) -/

theorem Session.load_fits {s : Session} {bytes : List Byte} (hs : s.phase = .fresh) (hb : bytes.length ≤ 3584) :
    s.load bytes = .next (.loadOk, ⟨s.core.loadBytes bytes, .loaded⟩) := by
  have hfits : programTooLarge bytes = false := decide_eq_false (Nat.not_lt.mpr hb)
  simp [Session.load, hs, hfits]

theorem Session.load_too_large {s : Session} {bytes : List Byte} (hs : s.phase = .fresh) (hb : 3584 < bytes.length) :
    s.load bytes = .next (.programTooLarge, s) := by
  have hlong : programTooLarge bytes = true := decide_eq_true hb
  simp [Session.load, hs, hlong]

theorem Session.load_outside_protocol {s : Session} (hs : s.phase ≠ .fresh) (bytes : List Byte) :
    s.load bytes = .refused .loadOutsideProtocol := by
  unfold Session.load
  split
  case h_1 hfresh => exact absurd hfresh hs
  case h_2 | h_3 => rfl

/-- Everything LOAD can do. -/
theorem Session.load_cases (s : Session) (bytes : List Byte) :
    s.load bytes = .next (.loadOk, ⟨s.core.loadBytes bytes, .loaded⟩) ∨ s.load bytes = .next (.programTooLarge, s) ∨
    s.load bytes = .refused .loadOutsideProtocol := by
  by_cases hs : s.phase = .fresh
  · by_cases hb : bytes.length ≤ 3584
    · exact .inl (Session.load_fits hs hb)
    · exact .inr (.inl (Session.load_too_large hs (Nat.lt_of_not_le hb)))
  · exact .inr (.inr (Session.load_outside_protocol hs bytes))

/-- Settles O57: a program that fits ends inside memory, so its bytes are a store there. -/
theorem loadCopiesProgram : Obligations.LoadCopiesProgram := by
  intro s bytes hwf
  constructor
  · intro hb
    have hrange : 0x200 + bytes.length ≤ 0x1000 := by omega
    exact ⟨s.loadBytes bytes, Session.load_fits (s := ⟨s, .fresh⟩) rfl hb, fun _ hk => Memory.read_writeBytes_same hwf hrange hk,
      frame_writeBytes s 0x200 bytes, Memory.writeBytes_wf hwf hrange⟩
  · exact Session.load_too_large (s := ⟨s, .fresh⟩) rfl

/-! ### One host operation (R352, R355, R356) -/

/-- CYCLE always returns, and from then on a CYCLE has run (R300). -/
theorem Session.perform_cycle (s : Session) :
    ∃ o t, s.perform .cycle = .next (.cycled o, ⟨t, .running⟩) := by
  obtain ⟨o, t, hcycle, _⟩ := cycleReturnsOneOutcome s.core
  exact ⟨o, t, by simp only [Session.perform, hcycle]⟩

/-- Every host operation completes, but for a LOAD outside the protocol (R356). -/
theorem Session.perform_completes_or_refused (s : Session) (op : HostOp) :
    (∃ reply t, s.perform op = .next (reply, t)) ∨ s.perform op = .refused .loadOutsideProtocol := by
  cases op with
  | load bytes =>
    rcases s.load_cases bytes with h | h | h
    · exact .inl ⟨_, _, h⟩
    · exact .inl ⟨_, _, h⟩
    · exact .inr h
  | cycle =>
    obtain ⟨o, t, h⟩ := s.perform_cycle
    exact .inl ⟨_, _, h⟩
  | reset | tick | keySet | dispRead => exact .inl ⟨_, _, rfl⟩

theorem Session.phase_after_load {s t : Session} {bytes : List Byte} (h : s.perform (.load bytes) = .next (.loadOk, t)) :
    t.phase = .loaded := by
  have h : s.load bytes = .next (.loadOk, t) := h
  rcases s.load_cases bytes with e | e | e <;> rw [e] at h <;> cases h
  rfl

theorem Session.phase_after_cycle {s t : Session} {reply : HostReply} (h : s.perform .cycle = .next (reply, t)) :
    t.phase = .running := by
  obtain ⟨o, c, e⟩ := s.perform_cycle
  rw [e] at h
  cases h
  rfl

/-- Only RESET opens the protocol again (R352, R355). -/
theorem Session.perform_keeps_closed {s t : Session} {op : HostOp} {reply : HostReply} (hs : s.phase ≠ .fresh)
    (hop : ∀ seed, op ≠ .reset seed) (h : s.perform op = .next (reply, t)) : t.phase ≠ .fresh := by
  cases op with
  | reset seed => exact absurd rfl (hop seed)
  | load bytes => exact nomatch h.symm.trans (Session.load_outside_protocol hs bytes)
  | cycle => rw [Session.phase_after_cycle h]; exact nofun
  | tick | keySet | dispRead => cases h; exact hs

/-- TICK, KEYSET and DISPREAD complete and leave the phase as it is (log 15). -/
theorem Session.perform_input {s : Session} {op : HostOp}
    (hop : op = .tick ∨ op = .dispRead ∨ ∃ k b, op = .keySet k b) :
    ∃ reply t, s.perform op = .next (reply, t) ∧ t.phase = s.phase := by
  rcases hop with rfl | rfl | ⟨k, b, rfl⟩ <;> exact ⟨_, _, rfl, rfl⟩

/-! ### Any list of host operations (R356, R361) -/

section
variable {s t u : Session} {op : HostOp} {ops : List HostOp} {reply : HostReply} {replies : List HostReply}

theorem Session.performAll_cons (h : s.perform op = .next (reply, t)) (hrest : t.performAll ops = .next (replies, u)) :
    s.performAll (op :: ops) = .next (reply :: replies, u) := by
  simp only [Session.performAll, h, hrest]

theorem Session.performAll_cons_refused_head {e : Refusal} (h : s.perform op = .refused e) :
    s.performAll (op :: ops) = .refused e := by
  simp only [Session.performAll, h]

theorem Session.performAll_cons_refused_rest {e : Refusal} (h : s.perform op = .next (reply, t))
    (hrest : t.performAll ops = .refused e) : s.performAll (op :: ops) = .refused e := by
  simp only [Session.performAll, h, hrest]

/-- A list of operations that completes completes its first one, and then the others. -/
theorem Session.performAll_cons_next (h : s.performAll (op :: ops) = .next (replies, u)) :
    ∃ reply t rest, s.perform op = .next (reply, t) ∧ t.performAll ops = .next (rest, u) := by
  simp only [Session.performAll] at h
  split at h
  case h_1 reply t hop =>
    split at h
    case h_1 rest v hrest => cases h; exact ⟨reply, t, rest, hop, hrest⟩
    case h_2 | h_3 => cases h
  case h_2 | h_3 => cases h

/-- Without a RESET the protocol stays closed, by induction on the operations. -/
theorem Session.performAll_keeps_closed (hs : s.phase ≠ .fresh) (hops : ∀ seed, HostOp.reset seed ∉ ops)
    (h : s.performAll ops = .next (replies, u)) : u.phase ≠ .fresh := by
  induction ops generalizing s replies with
  | nil => cases h; exact hs
  | cons op ops ih =>
    obtain ⟨reply, t, rest, hop, hrest⟩ := Session.performAll_cons_next h
    have hne : ∀ seed, op ≠ .reset seed := fun seed e => hops seed (e ▸ List.mem_cons_self)
    have ht : t.phase ≠ .fresh := Session.perform_keeps_closed hs hne hop
    exact ih ht (fun seed hmem => hops seed (List.mem_cons_of_mem op hmem)) hrest

/-- Any list of TICK, KEYSET and DISPREAD completes and leaves the phase as it is, by induction on it. -/
theorem Session.performAll_inputs
    (hops : ∀ op, op ∈ ops → op = .tick ∨ op = .dispRead ∨ ∃ k b, op = .keySet k b) :
    ∃ replies u, s.performAll ops = .next (replies, u) ∧ u.phase = s.phase := by
  induction ops generalizing s with
  | nil => exact ⟨[], s, rfl, rfl⟩
  | cons op ops ih =>
    obtain ⟨reply, t, hop, ht⟩ := Session.perform_input (s := s) (hops op List.mem_cons_self)
    obtain ⟨replies, u, hrest, hu⟩ := ih (s := t) fun o ho => hops o (List.mem_cons_of_mem op ho)
    exact ⟨reply :: replies, u, Session.performAll_cons hop hrest, hu.trans ht⟩

end

/-- Settles O58: a successful LOAD or a CYCLE closes the protocol and only RESET opens it. -/
theorem loadOutsideProtocolIsRefused : Obligations.LoadOutsideProtocolIsRefused := by
  refine ⟨?closed, ?reopened⟩
  case closed =>
    intro s t u bytes bytes' reply ops replies hclose hops hrun
    have ht : t.phase ≠ .fresh := by
      rcases hclose with h | h
      · rw [Session.phase_after_load h]; exact nofun
      · rw [Session.phase_after_cycle h]; exact nofun
    exact Session.load_outside_protocol (Session.performAll_keeps_closed ht hops hrun) bytes'
  case reopened =>
    intro s t seed reply ops bytes hreset hb hops
    have ht : t.phase = .fresh := by cases hreset; rfl
    obtain ⟨replies, u, hrun, hu⟩ := Session.performAll_inputs (s := t) hops
    exact ⟨replies, u, _, hrun, Session.load_fits (hu.trans ht) hb⟩

/-- Settles O55, by induction on the operations: each one completes and keeps the invariant, or is a LOAD refused. -/
theorem everyInterleavingKeepsInvariant : Obligations.EveryInterleavingKeepsInvariant := by
  intro s ops hs
  induction ops generalizing s with
  | nil => exact .inl ⟨[], s, rfl, hs⟩
  | cons op ops ih =>
    rcases s.perform_completes_or_refused op with ⟨reply, t, hop⟩ | hop
    · have ht : t.core.Inv := hostOperationsKeepInvariant s t op reply hs hop
      rcases ih t ht with ⟨replies, u, hrest, hu⟩ | hrest
      · exact .inl ⟨reply :: replies, u, Session.performAll_cons hop hrest, hu⟩
      · exact .inr (Session.performAll_cons_refused_rest hop hrest)
    · exact .inr (Session.performAll_cons_refused_head hop)

end Sys2Proof.Machine

/-! ## The states no run reaches: an SP above 15 (log 14) -/

namespace Sys2Proof.Machine

/-- Settles O16: an SP above 15 stops both instructions alike, CALL whatever its target. -/
theorem stackPointerAboveFifteenStops : Obligations.StackPointerAboveFifteenStops := by
  intro nnn s hSP
  have hcall : StackPointerOut (.call nnn) s := ⟨hSP, .inr ⟨nnn, rfl⟩⟩
  have hret : StackPointerOut .ret s := ⟨hSP, .inl rfl⟩
  exact ⟨exec_of_stackPointerOut hcall, exec_of_stackPointerOut hret⟩

end Sys2Proof.Machine
